-- ==== Sys2Proof/Word.lean ====
section
/-! DEFINITION. The word types of the block (spec/00_scope.md R5, R6; spec/30_encoding.md R60). -/

namespace Sys2Proof

/-- A Morton code, an integer operand, or a binary64 pattern: 64 bits (R5 `CODE_W`, R9). -/
abbrev Code := BitVec 64

/-- A fixed-point coordinate: 32 bits (R5 `Q_W`). -/
abbrev Fixed := BitVec 32

/-- One character of text, and one table entry: 8 bits (R16, R47). -/
abbrev Byte := BitVec 8

/-- One base32 digit: 5 bits (R5 `DIGIT_W`). -/
abbrev Digit := BitVec 5

/-- A command word: 16 bits (R5 `CMD_W`, R60). -/
abbrev CommandWord := BitVec 16

end Sys2Proof
end

