-- ==== Sys2Proof/Syntax.lean ====
section
/-! DEFINITION. The commands of the block, one constructor per row of spec/opcode_table.json
(spec/30_encoding.md R64). An immediate is the number the rules call `imm` (R63). -/

namespace Sys2Proof

/-- The 17 commands. Format N commands carry nothing, format I commands an immediate (R61, R62). -/
inductive Instr where
  /-- `NOP`: nothing but `STATUS.FC <- 0` (R70). -/
  | nop
  /-- `QNT`: quantise `LAT` and `LON` (R84). -/
  | qnt
  /-- `DQNT`: invert the fixed-point scaling of `QLAT` and `QLON` (R86). -/
  | dqnt
  /-- `SPREAD`: bit-spread of `CODE[31:0]` (R106). -/
  | spread
  /-- `SQUASH`: inverse bit-spread of `CODE` (R107). -/
  | squash
  /-- `ILV`: interleave `QLAT` and `QLON` into `CODE` (R108). -/
  | ilv
  /-- `DILV`: de-interleave `CODE` into `QLAT` and `QLON` (R109). -/
  | dilv
  /-- `MENC`: Morton encode of the point (R121). -/
  | menc
  /-- `MDEC imm`: Morton decode of the low `imm` bits of `CODE` (R124). -/
  | mdec (imm : Nat)
  /-- `TRUNC imm`: keep the top `imm` bits of `CODE` (R126). -/
  | trunc (imm : Nat)
  /-- `B32E`: base32 encode `CODE` (R142). -/
  | b32e
  /-- `B32D`: base32 decode the text (R145). -/
  | b32d
  /-- `GEOHASH imm`: text of the point at `imm` bits (R161). -/
  | geohash (imm : Nat)
  /-- `LOCATE`: point and bit count of the text (R163). -/
  | locate
  /-- `BITS imm`: bit count of precision level `imm` (R181). -/
  | bits (imm : Nat)
  /-- `PREC imm`: precision level of `imm` bits (R183). -/
  | prec (imm : Nat)
  /-- `ERR imm`: error bounds at `imm` bits (R185). -/
  | err (imm : Nat)
  deriving DecidableEq, Repr

end Sys2Proof
end

