-- ==== Sys2Proof/WellFormed.lean ====
section
/-! DEFINITION. When a command term is one a command word can hold: its immediate fits the 7 bits
of the field (spec/30_encoding.md R63). -/

namespace Sys2Proof

/-- The immediate of a format I command, and none for format N (R61, R62). -/
def Instr.immediate? : Instr → Option Nat
  | .nop | .qnt | .dqnt | .spread | .squash | .ilv | .dilv | .menc | .b32e | .b32d | .locate => none
  | .mdec imm | .trunc imm | .geohash imm | .bits imm | .prec imm | .err imm => some imm

/-- "an unsigned integer 0 to 127" (R63). -/
def Instr.wellFormed (i : Instr) : Bool :=
  match i.immediate? with
  | none => true
  | some imm => decide (imm ≤ 127)

end Sys2Proof
end

