-- ==== Sys2Proof/Decode.lean ====
section
/-! DEFINITION. From a command word to a command or a named reason why the word is reserved, the
encoder, and the opcode map as data (spec/30_encoding.md R60 to R67). -/

namespace Sys2Proof

/-- The three ways a word is reserved, as R65 lists them. -/
inductive Reserved where
  /-- "every word with `op` from 0x11 to 0xFF". -/
  | unassignedOp
  /-- "every word with bit 7 set". -/
  | bit7Set
  /-- "every word with a format N opcode and `imm7` not 0". -/
  | immediateNotZero
  deriving DecidableEq, Repr

/-- What a word decodes to: a command, or a reserved word with its reason. -/
inductive Decoded where
  | command (i : Instr)
  | reserved (why : Reserved)
  deriving DecidableEq, Repr

/-- Bits 15:8 (R60). -/
def opField (w : CommandWord) : BitVec 8 := w.extractLsb' 8 8

/-- Bit 7 (R60). -/
def zField (w : CommandWord) : BitVec 1 := w.extractLsb' 7 1

/-- Bits 6:0 (R60). -/
def immField (w : CommandWord) : BitVec 7 := w.extractLsb' 0 7

/-- A word with a format N opcode (R61). -/
def decodeFormatN (w : CommandWord) (i : Instr) : Decoded :=
  if zField w ≠ 0#1 then .reserved .bit7Set
  else if immField w ≠ 0#7 then .reserved .immediateNotZero
  else .command i

/-- A word with a format I opcode; the immediate is zero-extended, "not scaled, not shifted, not
sign-extended" (R62, R63). -/
def decodeFormatI (w : CommandWord) (f : Nat → Instr) : Decoded :=
  if zField w ≠ 0#1 then .reserved .bit7Set
  else .command (f (immField w).toNat)

/-- The opcode map (R64); total, every other opcode is reserved (R65). -/
def decode (w : CommandWord) : Decoded :=
  match (opField w).toNat with
  | 0x00 => decodeFormatN w .nop
  | 0x01 => decodeFormatN w .qnt
  | 0x02 => decodeFormatN w .dqnt
  | 0x03 => decodeFormatN w .spread
  | 0x04 => decodeFormatN w .squash
  | 0x05 => decodeFormatN w .ilv
  | 0x06 => decodeFormatN w .dilv
  | 0x07 => decodeFormatN w .menc
  | 0x08 => decodeFormatI w .mdec
  | 0x09 => decodeFormatI w .trunc
  | 0x0A => decodeFormatN w .b32e
  | 0x0B => decodeFormatN w .b32d
  | 0x0C => decodeFormatI w .geohash
  | 0x0D => decodeFormatN w .locate
  | 0x0E => decodeFormatI w .bits
  | 0x0F => decodeFormatI w .prec
  | 0x10 => decodeFormatI w .err
  | _ => .reserved .unassignedOp

/-- The opcode of a command (R64, column `op`). -/
def Instr.opcode : Instr → BitVec 8
  | .nop => 0x00#8
  | .qnt => 0x01#8
  | .dqnt => 0x02#8
  | .spread => 0x03#8
  | .squash => 0x04#8
  | .ilv => 0x05#8
  | .dilv => 0x06#8
  | .menc => 0x07#8
  | .mdec _ => 0x08#8
  | .trunc _ => 0x09#8
  | .b32e => 0x0A#8
  | .b32d => 0x0B#8
  | .geohash _ => 0x0C#8
  | .locate => 0x0D#8
  | .bits _ => 0x0E#8
  | .prec _ => 0x0F#8
  | .err _ => 0x10#8

/-- The word of a command: `{op, 0x00}` in format N, `{op, 0, imm7}` in format I (R61, R62). -/
def encode (i : Instr) : CommandWord :=
  i.opcode ++ 0#1 ++ BitVec.ofNat 7 (i.immediate?.getD 0)

/-- The mnemonic of a command (R64). -/
def Instr.mnemonic : Instr → String
  | .nop => "NOP"
  | .qnt => "QNT"
  | .dqnt => "DQNT"
  | .spread => "SPREAD"
  | .squash => "SQUASH"
  | .ilv => "ILV"
  | .dilv => "DILV"
  | .menc => "MENC"
  | .mdec _ => "MDEC"
  | .trunc _ => "TRUNC"
  | .b32e => "B32E"
  | .b32d => "B32D"
  | .geohash _ => "GEOHASH"
  | .locate => "LOCATE"
  | .bits _ => "BITS"
  | .prec _ => "PREC"
  | .err _ => "ERR"

/-- A command as a listing line writes it: the mnemonic, and "for format I by one space and the
immediate in decimal" (R68). There are no other spellings (R69). -/
def Instr.listing (i : Instr) : String :=
  match i.immediate? with
  | none => i.mnemonic
  | some imm => i.mnemonic ++ " " ++ toString imm

/-- One row of the opcode map: "a word `w` selects the row for which `w & mask = match`" (R64). -/
structure OpcodeRow where
  mnemonic : String
  pattern : CommandWord
  mask : CommandWord
  deriving DecidableEq, Repr

/-- Whether the word selects the row (R64). -/
def OpcodeRow.selects (r : OpcodeRow) (w : CommandWord) : Bool :=
  w &&& r.mask == r.pattern

/-- The opcode map as R64 prints it, columns `mnemonic`, `match` and `mask`. -/
def opcodeTable : List OpcodeRow :=
  [⟨"NOP", 0x0000#16, 0xFFFF#16⟩, ⟨"QNT", 0x0100#16, 0xFFFF#16⟩, ⟨"DQNT", 0x0200#16, 0xFFFF#16⟩,
   ⟨"SPREAD", 0x0300#16, 0xFFFF#16⟩, ⟨"SQUASH", 0x0400#16, 0xFFFF#16⟩] ++
  [⟨"ILV", 0x0500#16, 0xFFFF#16⟩, ⟨"DILV", 0x0600#16, 0xFFFF#16⟩, ⟨"MENC", 0x0700#16, 0xFFFF#16⟩,
   ⟨"MDEC", 0x0800#16, 0xFF80#16⟩, ⟨"TRUNC", 0x0900#16, 0xFF80#16⟩] ++
  [⟨"B32E", 0x0A00#16, 0xFFFF#16⟩, ⟨"B32D", 0x0B00#16, 0xFFFF#16⟩,
   ⟨"GEOHASH", 0x0C00#16, 0xFF80#16⟩, ⟨"LOCATE", 0x0D00#16, 0xFFFF#16⟩,
   ⟨"BITS", 0x0E00#16, 0xFF80#16⟩] ++
  [⟨"PREC", 0x0F00#16, 0xFF80#16⟩, ⟨"ERR", 0x1000#16, 0xFF80#16⟩]

/-- The word whose bits are `w`; the bits above `nbits` are zero (log entry 17). -/
def tableWord (nbits w : Nat) : CommandWord := BitVec.ofNat 16 (w % 2 ^ min nbits 16)

/-- The command the decoder reads from a row's word of `nbits` bits; a command is never longer than
16 bits (R67). -/
def decodeTableWord (nbits w : Nat) : Option Instr :=
  if 16 < nbits then none
  else
    match decode (tableWord nbits w) with
    | .command i => some i
    | .reserved _ => none

end Sys2Proof
end

