-- ==== Sys2Proof/Config.lean ====
section
/-! DEFINITION. What is fixed for one block, and the values the spec leaves free
(spec/00_scope.md R5). The free values have no body: nothing can be proved of them but their type. -/

namespace Sys2Proof.Config

/-- `DIGITS`: base32 digits the encoder produces (R5). -/
abbrev digits : Nat := 12

/-- `GH_SHIFT`: right shift GEOHASH applies before base32 encoding (R5, R160). -/
abbrev ghShift : Nat := 4

/-- `GH_MIN`: least bit count of GEOHASH and LOCATE (R5). -/
abbrev ghMin : Nat := 5

/-- `GH_MAX`: greatest bit count of GEOHASH and LOCATE (R5). -/
abbrev ghMax : Nat := 60

/-- `ERR_MIN`: least bit count for which ERR gives a bound (R5). -/
abbrev errMin : Nat := 1

/-- `ERR_MAX`: greatest bit count for which ERR gives a bound (R5). -/
abbrev errMax : Nat := 60

/-- Greatest bit count of MDEC and TRUNC (R124, R126). -/
abbrev codeBits : Nat := 64

/-- `DEC_INV`: the stored form of the decode table's invalid entry (R5, R42). -/
abbrev decInv : Byte := 0xFF#8

/-- `Q_OOR`: the quantiser's result for an input out of range is a draw, "any 32-bit value, not
constrained by this spec" (R82). The `n`-th draw of a machine is `quantDraw n`.
DESIGN CHOICE (log entry 3), safe: no value of it can be proved. -/
opaque quantDraw : Nat → Fixed

/-- The sign of `NAN_PATTERN`, left `OPEN` by R5. DESIGN CHOICE (log entry 5), safe. -/
opaque nanSign : Bool

/-- The fraction of `NAN_PATTERN`, left `OPEN` by R5. DESIGN CHOICE (log entry 5), safe. -/
opaque nanFraction : BitVec 52

end Sys2Proof.Config
end

