-- ==== Sys2Proof/Machine/State.lean ====
section
/-! DEFINITION. The state of the block, the actions of its host, and reset
(spec/10_state.md R10 to R25; spec/70_reset_and_hazards.md R230). -/

namespace Sys2Proof.Machine

/-- The outcome codes `STATUS.FC` can hold (spec/60_exceptions.md R200). -/
inductive FaultCode where
  /-- 0: no error. -/
  | ok
  /-- 1: a bit count or text length out of range (R201). -/
  | invalidBitCount
  /-- 2: a character outside the base32 alphabet (R202). -/
  | invalidBase32
  /-- 3: a reserved command word (R203). -/
  | illegalCommand
  deriving DecidableEq, Repr

/-- The registers by name (R10); each place of `TXT` is one. -/
inductive Reg where
  | lat | lon | qlat | qlon | code | nbits | elat | elon
  | txt (i : Fin 12)
  | tlen | status
  deriving DecidableEq, Repr

/-- A register together with a value of its width: what a host write carries and what a host read
returns (R19, spec/20_memory.md R47). -/
inductive RegValue where
  | lat (v : Code)
  | lon (v : Code)
  | qlat (v : Fixed)
  | qlon (v : Fixed)
  | code (v : Code)
  | nbits (v : BitVec 16)
  | elat (v : Code)
  | elon (v : Code)
  | txt (i : Fin 12) (v : Byte)
  | tlen (v : BitVec 4)
  | status (v : Byte)
  deriving DecidableEq, Repr

/-- One atomic action on the block from outside: the host's three kinds of action (R2) and the
reset input (R230). -/
inductive Action where
  /-- `WR reg, value`. -/
  | write (v : RegValue)
  /-- `RD reg`. -/
  | read (r : Reg)
  /-- Issue of a command word. -/
  | issue (w : CommandWord)
  /-- The reset input. -/
  | reset
  deriving DecidableEq, Repr

/-- The registers of the block, "exactly these registers and no other state" (R10), and after them
three fields of the model's own: what the host has still to do, what its latest read returned, and
how many free values the quantiser has used (log entries 1, 2, 3). -/
structure State where
  /-- `LAT` (R11). -/
  lat : Code
  /-- `LON` (R11). -/
  lon : Code
  /-- `QLAT` (R12). -/
  qlat : Fixed
  /-- `QLON` (R12). -/
  qlon : Fixed
  /-- `CODE` (R13). -/
  code : Code
  /-- `NBITS`, two's complement (R14). -/
  nbits : BitVec 16
  /-- `ELAT` (R15). -/
  elat : Code
  /-- `ELON` (R15). -/
  elon : Code
  /-- `TXT[0]` to `TXT[11]` (R16). -/
  txt : Vector Byte 12
  /-- `TLEN` (R17). -/
  tlen : BitVec 4
  /-- `STATUS` (R18). -/
  status : Byte
  /-- The model's own: the host's actions not yet performed, in the total order of
  spec/20_memory.md R50, the next one first. -/
  pending : List Action
  /-- The model's own: what the host's latest register read returned. -/
  answer : Option RegValue
  /-- The model's own: the index of the quantiser's next free value (spec/40_quantiser.md R82). -/
  draws : Nat
  deriving DecidableEq, Repr

/-- The reasons the machine stops with a fault: none. Every fault of the spec is an outcome in
`STATUS.FC` after which "the block is ready for the next host action at once"
(spec/60_exceptions.md R204). DEDUCED (log entry 13), safe. -/
inductive Fault where
  deriving DecidableEq, Repr

/-- The reasons the model gives an instruction no meaning. -/
inductive Refusal where
  /-- Raised by an arm of `exec` for an instruction without a meaning yet; safe. No arm raises it. -/
  | notModelled (mnemonic : String)
  deriving DecidableEq, Repr

/-- The machine right after reset: "every register holds zero" (R25); the host has asked nothing
yet (log entries 1, 2, 4, 6). -/
def State.reset : State where
  lat := 0#64
  lon := 0#64
  qlat := 0#32
  qlon := 0#32
  code := 0#64
  nbits := 0#16
  elat := 0#64
  elon := 0#64
  txt := #v[0#8, 0#8, 0#8, 0#8, 0#8, 0#8, 0#8, 0#8, 0#8, 0#8, 0#8, 0#8]
  tlen := 0#4
  status := 0x00#8
  pending := []
  answer := none
  draws := 0

end Sys2Proof.Machine
end

