-- ==== Sys2Proof/Machine/Flags.lean ====
section
/-! DEFINITION. The one flag-like state, `STATUS.FC` (spec/10_state.md R18, R23;
spec/60_exceptions.md R200). There are no condition codes. -/

namespace Sys2Proof.Machine

/-- The numeric codes (R200). -/
def FaultCode.toBits : FaultCode → BitVec 3
  | .ok => 0#3
  | .invalidBitCount => 1#3
  | .invalidBase32 => 2#3
  | .illegalCommand => 3#3

/-- `STATUS.FC`: bits 2:0 (R18). -/
def State.fc (s : State) : BitVec 3 := s.status.extractLsb' 0 3

/-- The reserved field of `STATUS`: bits 7:3 (R18). -/
def State.statusReserved (s : State) : BitVec 5 := s.status.extractLsb' 3 5

/-- `STATUS.FC <- c`; the reserved bits 7:3 are "never written" (R18). -/
def State.setFC (c : FaultCode) (s : State) : State :=
  { s with status := s.statusReserved ++ c.toBits }

end Sys2Proof.Machine
end

