-- ==== Sys2Proof/Machine/Operands.lean ====
section
/-! DEFINITION. Shifts, bit-by-bit words and the text operand (spec/00_scope.md R6, R7;
spec/10_state.md R16, R17). A command's immediate is the number its constructor holds (R63), so it
needs no operand form of its own. -/

namespace Sys2Proof.Machine

/-- `shl64(v, n)` for `0 <= n <= 64`: vacated bits are zero and `shl64(v, 64) = 0` (R7). -/
def shl64 (v : Code) (n : Nat) : Code := v <<< n

/-- `shr64(v, n)` for `0 <= n <= 64`, and `shr64(v, 64) = 0` (R7). -/
def shr64 (v : Code) (n : Nat) : Code := v >>> n

/-- The word of width `w` whose bit `i` is `f i` (bit 0 the least significant, R6). -/
def wordOfBits : (w : Nat) → (Nat → Bool) → BitVec w
  | 0, _ => 0#0
  | w + 1, f => BitVec.cons (f w) (wordOfBits w f)

/-- The characters that are text: `TXT[0]` to `TXT[TLEN-1]` (R17). -/
def State.text (s : State) : List Byte := s.txt.toList.take s.tlen.toNat

/-- `TLEN` as the number the checks compare (R17). -/
def State.textLength (s : State) : Nat := s.tlen.toNat

end Sys2Proof.Machine
end

