-- ==== Sys2Proof/Machine/Ops.lean ====
section
/-! DEFINITION. The operations every command ends with, and the host's access to the registers
(spec/30_encoding.md R71; spec/60_exceptions.md R204, R205; spec/10_state.md R18, R19). -/

namespace Sys2Proof.Machine

/-- What a command of this block answers. -/
abbrev Result := Host.Outcome State Fault Refusal

/-- The end of a command that does not fault: its results, already in `s`, "and `STATUS.FC <- 0`,
as one step" (R205). -/
def commit (s : State) : Result := .next (s.setFC .ok)

/-- Fault entry: "`raise Fault(c)` does exactly this: `STATUS.FC <- c`. No other register changes."
(R204). There is nothing to return from (R207). -/
def raiseFault (c : FaultCode) (s : State) : Result := .next (s.setFC c)

/-- A host write replaces the whole register and changes no other (R19); "Host writes to `STATUS`
are ignored" (R18). -/
def State.hostWrite (v : RegValue) (s : State) : State :=
  match v with
  | .lat x => { s with lat := x }
  | .lon x => { s with lon := x }
  | .qlat x => { s with qlat := x }
  | .qlon x => { s with qlon := x }
  | .code x => { s with code := x }
  | .nbits x => { s with nbits := x }
  | .elat x => { s with elat := x }
  | .elon x => { s with elon := x }
  | .txt i x => { s with txt := s.txt.set i x }
  | .tlen x => { s with tlen := x }
  | .status _ => s

/-- What a host read of a register returns (R19). Bits 7:3 of `STATUS` "read as zero" (R18). -/
def State.hostRead (r : Reg) (s : State) : RegValue :=
  match r with
  | .lat => .lat s.lat
  | .lon => .lon s.lon
  | .qlat => .qlat s.qlat
  | .qlon => .qlon s.qlon
  | .code => .code s.code
  | .nbits => .nbits s.nbits
  | .elat => .elat s.elat
  | .elon => .elon s.elon
  | .txt i => .txt i s.txt[i]
  | .tlen => .tlen s.tlen
  | .status => .status (0#5 ++ s.fc)

/-- The reset event gives every register its reset value (R230). The host's own side is not a
register: what it has still to do, what it last read and the count of free values stay
(log entries 4, 14). -/
def State.resetRegisters (s : State) : State :=
  { State.reset with pending := s.pending, answer := s.answer, draws := s.draws }

end Sys2Proof.Machine
end

