-- ==== Sys2Proof/Machine/Tables.lean ====
section
/-! DEFINITION. The two read-only tables (spec/20_memory.md R41, R42) and the lookup
(spec/00_scope.md R8). They are constants, not state (spec/10_state.md R26). -/

namespace Sys2Proof.Machine

/-- `ROM_ENC`: the bytes of `0123456789bcdefghjkmnpqrstuvwxyz` (R41, R140). -/
def romEnc : List Byte :=
  [0x30#8, 0x31#8, 0x32#8, 0x33#8, 0x34#8, 0x35#8, 0x36#8, 0x37#8] ++
  [0x38#8, 0x39#8, 0x62#8, 0x63#8, 0x64#8, 0x65#8, 0x66#8, 0x67#8] ++
  [0x68#8, 0x6A#8, 0x6B#8, 0x6D#8, 0x6E#8, 0x70#8, 0x71#8, 0x72#8] ++
  [0x73#8, 0x74#8, 0x75#8, 0x76#8, 0x77#8, 0x78#8, 0x79#8, 0x7A#8]

/-- `ROM_DEC`: one entry for each byte from 0x30 to 0x7A, in the groups R42 prints. -/
def romDec : List Byte :=
  [0#8, 1#8, 2#8, 3#8, 4#8, 5#8, 6#8, 7#8, 8#8, 9#8] ++     -- 0x30 to 0x39
  List.replicate 7 Config.decInv ++                          -- 0x3A to 0x40
  List.replicate 26 Config.decInv ++                         -- 0x41 to 0x5A
  List.replicate 6 Config.decInv ++                          -- 0x5B to 0x60
  [Config.decInv] ++                                         -- 0x61 a
  [10#8, 11#8, 12#8, 13#8, 14#8, 15#8, 16#8] ++              -- 0x62 to 0x68
  [Config.decInv] ++                                         -- 0x69 i
  [17#8, 18#8] ++                                            -- 0x6A, 0x6B
  [Config.decInv] ++                                         -- 0x6C l
  [19#8, 20#8] ++                                            -- 0x6D, 0x6E
  [Config.decInv] ++                                         -- 0x6F o
  [21#8, 22#8, 23#8, 24#8, 25#8, 26#8, 27#8, 28#8, 29#8, 30#8, 31#8]   -- 0x70 to 0x7A

/-- `RomRead(T, k)` (R8). No lookup is ever out of range (R46); log entry 12. -/
def romRead (t : List Byte) (k : Nat) : Byte := t.getD k Config.decInv

end Sys2Proof.Machine
end

