-- ==== Sys2Proof/Machine/Base32.lean ====
section
/-! DEFINITION. The base32 family (spec/43_base32.md): B32E and B32D. -/

namespace Sys2Proof.Machine

/-- The digit of place `i`: `v[59-5i : 55-5i]` for `i = 0..11` (R141). -/
def digitAt (v : Code) (i : Nat) : Digit := v.extractLsb' (55 - 5 * i) 5

/-- The character of place `i` of `b32enc(v)` (R141). -/
def b32char (v : Code) (i : Nat) : Byte := romRead romEnc (digitAt v i).toNat

/-- The first `n` characters of `b32enc(v)`, and `0x00` in the places after them (R141, R161). -/
def b32text (v : Code) (n : Nat) : Vector Byte 12 :=
  Vector.ofFn fun i => if i.val < n then b32char v i.val else 0x00#8

/-- `b32digit(b)`: the digit of a byte, or `none` for invalid; the range test comes before the
lookup (R143). -/
def b32digit? (b : Byte) : Option Digit :=
  if b < 0x30#8 ∨ 0x7A#8 < b then none
  else
    let e := romRead romDec (b.toNat - 0x30)
    if e = Config.decInv then none else some (e.setWidth 5)

/-- The digits of a text, or `none` if any character is invalid (R143, R145). -/
def b32digits? : List Byte → Option (List Digit)
  | [] => some []
  | b :: t =>
    match b32digit? b, b32digits? t with
    | some d, some ds => some (d :: ds)
    | _, _ => none

/-- "Accumulate by left-shifting 5 bits per character" (R144). -/
def b32accumulate (ds : List Digit) : Code :=
  ds.foldl (fun v d => shl64 v 5 ||| d.setWidth 64) 0#64

/-- `b32dec(t, n)` of the `n` bytes `t`, or `none` if one is invalid (R144). -/
def b32dec? (t : List Byte) : Option Code := (b32digits? t).map b32accumulate

/-- B32E (R142). -/
def execB32e (s : State) : Result :=
  commit { s with txt := b32text s.code Config.digits, tlen := 12#4 }

/-- B32D: the length check, then the characters, then the result (R145, R206). -/
def execB32d (s : State) : Result :=
  if s.textLength > Config.digits then raiseFault .invalidBitCount s
  else
    match b32dec? s.text with
    | none => raiseFault .invalidBase32 s
    | some v => commit { s with code := v }

end Sys2Proof.Machine
end

