-- ==== Sys2Proof/Machine/BitSpread.lean ====
section
/-! DEFINITION. The bit-spread unit (spec/41_bitspread.md): SPREAD, SQUASH, ILV, DILV. The
functions are the bit-by-bit ones of R100 and R102, which the spec calls normative; the networks of
R101 and R103 stand beside them (log entry 9). -/

namespace Sys2Proof.Machine

/-- `spread(x)`: `y[2i] = x[i]` and `y[2i+1] = 0` (R100). -/
def spread (x : Fixed) : Code := wordOfBits 64 fun j => j % 2 == 0 && x.getLsbD (j / 2)

/-- `squash(y)`: `x[i] = y[2i]` (R102). -/
def squash (y : Code) : Fixed := wordOfBits 32 fun i => y.getLsbD (2 * i)

/-- The five shift-OR-mask stages of the spread network (R101). -/
def spreadNetwork (x : Fixed) : Code :=
  let y0 := x.setWidth 64
  let y1 := (y0 ||| shl64 y0 16) &&& 0x0000FFFF0000FFFF#64
  let y2 := (y1 ||| shl64 y1 8) &&& 0x00FF00FF00FF00FF#64
  let y3 := (y2 ||| shl64 y2 4) &&& 0x0F0F0F0F0F0F0F0F#64
  let y4 := (y3 ||| shl64 y3 2) &&& 0x3333333333333333#64
  (y4 ||| shl64 y4 1) &&& 0x5555555555555555#64

/-- The mask and five stages of the squash network (R103). -/
def squashNetwork (y : Code) : Fixed :=
  let z0 := y &&& 0x5555555555555555#64
  let z1 := (z0 ||| shr64 z0 1) &&& 0x3333333333333333#64
  let z2 := (z1 ||| shr64 z1 2) &&& 0x0F0F0F0F0F0F0F0F#64
  let z3 := (z2 ||| shr64 z2 4) &&& 0x00FF00FF00FF00FF#64
  let z4 := (z3 ||| shr64 z3 8) &&& 0x0000FFFF0000FFFF#64
  let z5 := (z4 ||| shr64 z4 16) &&& 0x00000000FFFFFFFF#64
  z5.setWidth 32

/-- `interleave(a, b)`: latitude at the even positions, longitude at the odd ones (R104). -/
def interleave (a b : Fixed) : Code := spread a ||| shl64 (spread b) 1

/-- The latitude half of `deinterleave` (R105). -/
def latOfCode (c : Code) : Fixed := squash c

/-- The longitude half of `deinterleave` (R105). -/
def lonOfCode (c : Code) : Fixed := squash (shr64 c 1)

/-- SPREAD (R106). -/
def execSpread (s : State) : Result :=
  commit { s with code := spread (s.code.setWidth 32) }

/-- SQUASH (R107). -/
def execSquash (s : State) : Result :=
  commit { s with code := (squash s.code).setWidth 64 }

/-- ILV (R108). -/
def execIlv (s : State) : Result :=
  commit { s with code := interleave s.qlat s.qlon }

/-- DILV (R109). -/
def execDilv (s : State) : Result :=
  commit { s with qlat := latOfCode s.code, qlon := lonOfCode s.code }

end Sys2Proof.Machine
end

