-- ==== Sys2Proof/Machine/Float64.lean ====
section
/-! DEFINITION. Binary64 arithmetic (spec/00_scope.md R9): patterns, exact values, and the sum,
quotient and product rounded once, to nearest with ties to even. Every finite binary64 number is a
whole multiple of `2^-1074`, so a magnitude is held as that multiple. Log entries 7 and 8. -/

namespace Sys2Proof.Machine

/-- A binary64 datum. NaN payloads are not kept: no intermediate NaN is ever stored (R89). -/
inductive Fp where
  | nan
  | inf (neg : Bool)
  /-- The number `mag * 2^-1074`, negated when `neg`. -/
  | fin (neg : Bool) (mag : Nat)
  deriving DecidableEq, Repr

/-- `2^1074`: how many units make 1. (Irreducible for the elaborator's sake only: the numeral is
long.) -/
@[irreducible] def fpOne : Nat := 2 ^ 1074

/-- The least magnitude, in units, that is too large for a finite binary64: `2^1024`. -/
@[irreducible] def fpOverflow : Nat := 2 ^ 2098

/-- The datum of a pattern: bit 63 the sign, bits 62:52 the biased exponent, bits 51:0 the
fraction (R9). -/
def fpOfBits (p : Code) : Fp :=
  let neg := p.getLsbD 63
  let e := (p.extractLsb' 52 11).toNat
  let f := (p.extractLsb' 0 52).toNat
  if e = 2047 then (if f = 0 then .inf neg else .nan)
  else if e = 0 then .fin neg f
  else .fin neg ((2 ^ 52 + f) * 2 ^ (e - 1))

/-- `isnan` of a pattern (R9): exponent field all ones, fraction not zero. -/
def isNaN (p : Code) : Bool := p.extractLsb' 52 11 == 0x7FF#11 && p.extractLsb' 0 52 != 0#52

/-- A number in units with its sign. -/
def signedUnits (neg : Bool) (mag : Nat) : Int := if neg then -(mag : Int) else mag

/-- `num / den` rounded to a whole number, to nearest, ties to even. -/
def divNearestEven (num den : Nat) : Nat :=
  let q := num / den
  let r := num % den
  if den < 2 * r ∨ (2 * r = den ∧ q % 2 = 1) then q + 1 else q

/-- The spacing, in units, of binary64 numbers around a magnitude whose whole part is `m` units:
53 significant bits, and never finer than one unit. -/
def fpSpacing (m : Nat) : Nat := 2 ^ (m.log2 - 52)

/-- `num / den` units rounded to a binary64 magnitude with no bound on the exponent. -/
def roundUnits (num den : Nat) : Nat :=
  let g := fpSpacing (num / den)
  divNearestEven num (den * g) * g

/-- A finite datum, or infinity where the rounded magnitude is too large. -/
def fpRound (neg : Bool) (num den : Nat) : Fp :=
  let m := roundUnits num den
  if fpOverflow ≤ m then .inf neg else .fin neg m

/-- The binary64 sum (R9). An exact zero sum is plus zero unless both operands are minus zero. -/
def fadd : Fp → Fp → Fp
  | .nan, _ => .nan
  | _, .nan => .nan
  | .inf n, .inf m => if n = m then .inf n else .nan
  | .inf n, .fin _ _ => .inf n
  | .fin _ _, .inf m => .inf m
  | .fin n a, .fin m b =>
    let k := signedUnits n a + signedUnits m b
    if k = 0 then .fin (n && m) 0 else fpRound (decide (k < 0)) k.natAbs 1

/-- The binary64 quotient (R9). -/
def fdiv : Fp → Fp → Fp
  | .nan, _ => .nan
  | _, .nan => .nan
  | .inf _, .inf _ => .nan
  | .inf n, .fin m _ => .inf (n != m)
  | .fin n _, .inf m => .fin (n != m) 0
  | .fin n a, .fin m b =>
    if b = 0 then (if a = 0 then .nan else .inf (n != m))
    else fpRound (n != m) (a * fpOne) b

/-- The binary64 product (R9). -/
def fmul : Fp → Fp → Fp
  | .nan, _ => .nan
  | _, .nan => .nan
  | .inf n, .inf m => .inf (n != m)
  | .inf n, .fin m b => if b = 0 then .nan else .inf (n != m)
  | .fin n a, .inf m => if a = 0 then .nan else .inf (n != m)
  | .fin n a, .fin m b => fpRound (n != m) (a * b) fpOne

/-- `f64(r)` for the real `r = k * 2^-e`, for `r` zero or a normal binary64 number, the only reals the
rules apply it to; zero gives plus zero (R9). The leading one of the significand is the bit that
falls off the 52-bit field. -/
def f64 (k : Int) (e : Nat) : Code :=
  let m := k.natAbs
  if m = 0 then 0#64
  else
    let l := m.log2
    BitVec.ofBool (decide (k < 0)) ++ BitVec.ofNat 11 (l + 1023 - e) ++
      BitVec.ofNat 52 (m * 2 ^ (52 - l))

/-- The exact real number of a finite pattern, in units of `2^-1074`: `real(p)` of R9. -/
def realUnits? (p : Code) : Option Int :=
  match fpOfBits p with
  | .fin neg m => some (signedUnits neg m)
  | .inf _ => none
  | .nan => none

/-- The NaN with a given sign and fraction. A zero fraction would be an infinity, so it stands for
fraction 1: every binary64 NaN has this form and nothing else does (R185). -/
def nanOf (sign : Bool) (fraction : BitVec 52) : Code :=
  BitVec.ofBool sign ++ 0x7FF#11 ++ (if fraction = 0#52 then 1#52 else fraction)

/-- `NAN_PATTERN`: any binary64 NaN (R5). DESIGN CHOICE (log entry 5), safe. -/
def nanPattern : Code := nanOf Config.nanSign Config.nanFraction

end Sys2Proof.Machine
end

