-- ==== Sys2Proof/Machine/Quantiser.lean ====
section
/-! DEFINITION. The quantiser family (spec/40_quantiser.md): QNT and DQNT. -/

namespace Sys2Proof.Machine

/-- 90.0 (R80). -/
def pattern90 : Code := 0x4056800000000000#64

/-- 180.0 (R80). -/
def pattern180 : Code := 0x4066800000000000#64

/-- 360.0 (R80). -/
def pattern360 : Code := 0x4076800000000000#64

/-- 2^32 (R80). -/
def patternTwo32 : Code := 0x41F0000000000000#64

/-- "if 0 <= t <= 2^32 - 1 then quant = t", else out of range; never a wrapped value (R80, R28). -/
def narrowInteger? (t : Int) : Option Fixed :=
  if 0 ≤ t ∧ t ≤ 2 ^ 32 - 1 then some (BitVec.ofInt 32 t) else none

/-- `trunc(real(p))`, rounded toward zero, narrowed to 32 bits; a NaN or an infinity is out of
range (R80). -/
def narrow32? : Fp → Option Fixed
  | .nan => none
  | .inf _ => none
  | .fin neg m => narrowInteger? (signedUnits neg (m / fpOne))

/-- The three operations of `quant(v, off, span)` in the order of R80, "which must not be
rearranged": the sum, the quotient, the product by `2^32`. `off` and `span` are patterns. -/
def quantScaled (v off span : Code) : Fp :=
  let s := fadd (fpOfBits v) (fpOfBits off)
  let n := fdiv s (fpOfBits span)
  fmul n (fpOfBits patternTwo32)

/-- `quant(v, off, span)`; `none` is "out of range" (R80). -/
def quant? (v off span : Code) : Option Fixed := narrow32? (quantScaled v off span)

/-- `quant_lat` where it is in range (R81). -/
def quantLat? (v : Code) : Option Fixed := quant? v pattern90 pattern180

/-- `quant_lon` where it is in range (R81). -/
def quantLon? (v : Code) : Option Fixed := quant? v pattern180 pattern360

/-- A quantiser result: the value in range, else the draw of this index (R82; log entry 3). -/
def orDraw (q : Option Fixed) (k : Nat) : Fixed := q.getD (Config.quantDraw k)

/-- `quant_lat(LAT)` in a state, with that state's next draw. -/
def State.quantLat (s : State) : Fixed := orDraw (quantLat? s.lat) s.draws

/-- `quant_lon(LON)` in a state, with the draw after that: the two draws of one command are
independent. -/
def State.quantLon (s : State) : Fixed := orDraw (quantLon? s.lon) (s.draws + 1)

/-- The writes of `QLAT` and `QLON` by a quantising command, which uses up two draw indexes. -/
def State.withQuantised (s : State) : State :=
  { s with qlat := s.quantLat, qlon := s.quantLon, draws := s.draws + 2 }

/-- `dequant(q, span, off)`: the exact real `q * span / 2^32 - off` as a pattern (R85); `span` and
`off` are whole degrees. -/
def dequant (q : Fixed) (span off : Nat) : Code :=
  f64 ((q.toNat * span : Nat) - (off * 2 ^ 32 : Nat)) 32

/-- `dequant_lat` (R85). -/
def dequantLat (q : Fixed) : Code := dequant q 180 90

/-- `dequant_lon` (R85). -/
def dequantLon (q : Fixed) : Code := dequant q 360 180

/-- QNT (R84). -/
def execQnt (s : State) : Result := commit s.withQuantised

/-- DQNT (R86). -/
def execDqnt (s : State) : Result :=
  commit { s with lat := dequantLat s.qlat, lon := dequantLon s.qlon }

end Sys2Proof.Machine
end

