-- ==== Sys2Proof/Machine/Morton.lean ====
section
/-! DEFINITION. The Morton code family (spec/42_morton.md): MENC, MDEC, TRUNC; and the exported
byte form of a code (spec/20_memory.md R44). -/

namespace Sys2Proof.Machine

/-- The writes of MENC: quantise, then interleave the two results (R120, R121). Each coordinate is
drawn at most once, and `CODE` receives the same draw as `QLAT` or `QLON`. -/
def State.withEncoded (s : State) : State :=
  { s.withQuantised with code := interleave s.quantLat s.quantLon }

/-- `lalign(c, b)` for `0 <= b <= 64` (R122). -/
def lalign (c : Code) (b : Nat) : Code := shl64 c (64 - b)

/-- The writes of a decode of the aligned code `c`: the projections and the point (R123, R124). -/
def State.withDecoded (c : Code) (s : State) : State :=
  { s with
    qlat := latOfCode c
    qlon := lonOfCode c
    lat := dequantLat (latOfCode c)
    lon := dequantLon (lonOfCode c) }

/-- `tmask(b)` for `0 <= b <= 64` (R125). -/
def tmask (b : Nat) : Code := shl64 0xFFFFFFFFFFFFFFFF#64 (64 - b)

/-- Byte `k` of `BE8(v)`: `v[63-8k : 56-8k]` for `k = 0..7` (R44). -/
def be8Byte (v : Code) (k : Nat) : Byte := v.extractLsb' (56 - 8 * k) 8

/-- `BE8(v)`: the 8 bytes, big-endian, in which a truncated code leaves the block (R44). -/
def be8 (v : Code) : List Byte := (List.range 8).map (be8Byte v)

/-- MENC (R121). -/
def execMenc (s : State) : Result := commit s.withEncoded

/-- MDEC imm (R124). -/
def execMdec (imm : Nat) (s : State) : Result :=
  if imm > Config.codeBits then raiseFault .invalidBitCount s
  else commit (s.withDecoded (lalign s.code imm))

/-- TRUNC imm (R126). -/
def execTrunc (imm : Nat) (s : State) : Result :=
  if imm > Config.codeBits then raiseFault .invalidBitCount s
  else commit { s with code := s.code &&& tmask imm }

end Sys2Proof.Machine
end

