-- ==== Sys2Proof/Machine/Geohash.lean ====
section
/-! DEFINITION. The geohash family (spec/44_geohash.md): GEOHASH and LOCATE. -/

namespace Sys2Proof.Machine

/-- The number of characters a bit count gives: `floor(b / 5)` (R160). -/
def charsOfBits (b : Nat) : Nat := b / 5

/-- GEOHASH imm (R161): the check, the writes of MENC, then the text of `shr64(m, 4)`. -/
def execGeohash (imm : Nat) (s : State) : Result :=
  if imm < Config.ghMin ∨ imm > Config.ghMax then raiseFault .invalidBitCount s
  else
    let t := s.withEncoded
    let n := charsOfBits imm
    commit { t with
      txt := b32text (shr64 t.code Config.ghShift) n
      tlen := BitVec.ofNat 4 n }

/-- The bit count a text of `n` characters stands for: `5 * n` (R162). -/
def bitsOfChars (n : Nat) : Nat := 5 * n

/-- LOCATE (R163): length, then characters, then the decode of the aligned value; `CODE` keeps the
right-aligned value. -/
def execLocate (s : State) : Result :=
  if s.textLength < 1 ∨ s.textLength > Config.digits then raiseFault .invalidBitCount s
  else
    match b32dec? s.text with
    | none => raiseFault .invalidBase32 s
    | some v =>
      let b := bitsOfChars s.textLength
      commit { s.withDecoded (lalign v b) with code := v, nbits := BitVec.ofNat 16 b }

end Sys2Proof.Machine
end

