-- ==== Sys2Proof/Machine/Precision.lean ====
section
/-! DEFINITION. The precision helpers (spec/45_precision.md): BITS, PREC, ERR. -/

namespace Sys2Proof.Machine

/-- `bits_of(p) = 4 * (p + 6)` (R180). -/
def bitsOf (p : Nat) : Nat := 4 * (p + 6)

/-- `prec_of(b) = floor(b / 4) - 6` (R182). -/
def precOf (b : Nat) : Int := (b / 4 : Nat) - 6

/-- `latBits = floor(b / 2)` (R184). -/
def latBits (b : Nat) : Nat := b / 2

/-- `longBits = b - latBits` (R184). -/
def lonBits (b : Nat) : Nat := b - latBits b

/-- The pair of patterns `error_of(b)`, and the NaN pair outside 1 to 60 (R184, R185). -/
def errorOf (b : Nat) : Code × Code :=
  if Config.errMin ≤ b ∧ b ≤ Config.errMax then
    (f64 180 (latBits b), f64 360 (lonBits b))
  else (nanPattern, nanPattern)

/-- BITS imm (R181). -/
def execBits (imm : Nat) (s : State) : Result :=
  commit { s with nbits := BitVec.ofNat 16 (bitsOf imm) }

/-- PREC imm: the result as 16-bit two's complement (R183). -/
def execPrec (imm : Nat) (s : State) : Result :=
  commit { s with nbits := BitVec.ofInt 16 (precOf imm) }

/-- ERR imm (R185). -/
def execErr (imm : Nat) (s : State) : Result :=
  commit { s with elat := (errorOf imm).1, elon := (errorOf imm).2 }

end Sys2Proof.Machine
end

