-- ==== Sys2Proof/Machine/System.lean ====
section
/-! DEFINITION. The NOP command (spec/30_encoding.md R70). -/

namespace Sys2Proof.Machine

/-- NOP: "`STATUS.FC <- 0` only" (R70). -/
def execNop (s : State) : Result := commit s

end Sys2Proof.Machine
end

