-- ==== Sys2Proof/Machine/Dispatch.lean ====
section
/-! DEFINITION. One arm per command (spec/30_encoding.md R64). -/

namespace Sys2Proof.Machine

def exec (i : Instr) (s : State) : Host.Outcome State Fault Refusal :=
  match i with
  | .nop => Sys2Proof.Machine.execNop s
  | .qnt => Sys2Proof.Machine.execQnt s
  | .dqnt => Sys2Proof.Machine.execDqnt s
  | .spread => Sys2Proof.Machine.execSpread s
  | .squash => Sys2Proof.Machine.execSquash s
  | .ilv => Sys2Proof.Machine.execIlv s
  | .dilv => Sys2Proof.Machine.execDilv s
  | .menc => Sys2Proof.Machine.execMenc s
  | .mdec imm => Sys2Proof.Machine.execMdec imm s
  | .trunc imm => Sys2Proof.Machine.execTrunc imm s
  | .b32e => Sys2Proof.Machine.execB32e s
  | .b32d => Sys2Proof.Machine.execB32d s
  | .geohash imm => Sys2Proof.Machine.execGeohash imm s
  | .locate => Sys2Proof.Machine.execLocate s
  | .bits imm => Sys2Proof.Machine.execBits imm s
  | .prec imm => Sys2Proof.Machine.execPrec imm s
  | .err imm => Sys2Proof.Machine.execErr imm s

end Sys2Proof.Machine
end

