-- ==== Sys2Proof/Machine/Perform.lean ====
section
/-! DEFINITION. One action from outside: the issue of a command word, a host write, a host read, a
reset (spec/00_scope.md R2; spec/30_encoding.md R71; spec/70_reset_and_hazards.md R230). -/

namespace Sys2Proof.Machine

/-- Issue of a word: decode, "if none, `raise Fault(IllegalCommand)`" (R71, R65, R203); otherwise
the command. -/
def issue (w : CommandWord) (s : State) : Result :=
  match decode w with
  | .command i => exec i s
  | .reserved _ => raiseFault .illegalCommand s

/-- The effect of one action. -/
def perform (a : Action) (s : State) : Result :=
  match a with
  | .write v => .next (s.hostWrite v)
  | .read r => .next { s with answer := some (s.hostRead r) }
  | .issue w => issue w s
  | .reset => .next s.resetRegisters

/-- The actions `WR TXT, "..."` abbreviates: the writes of the bytes to `TXT[0]`, `TXT[1]`, ... in order,
and no other (spec/30_encoding.md R68). -/
def textWrites (bytes : List Byte) : List Action :=
  ((List.finRange 12).zip bytes).map fun p => .write (.txt p.1 p.2)

/-- The next action of the host, if it has one, and the state without it. An action is taken off
the list as it begins; each takes effect completely before the next (spec/20_memory.md R50). -/
def State.nextAction (s : State) : Option (Action × State) :=
  match s.pending with
  | [] => none
  | a :: rest => some (a, { s with pending := rest })

/-- One step: perform the next action; with none the block "waits for the first host action" (R231)
and nothing changes. -/
def stepOnce (s : State) : Result :=
  match s.nextAction with
  | none => .next s
  | some (a, t) => perform a t

/-- The host's next action becomes the issue of this word (log entry 1). -/
def State.issueNext (w : CommandWord) (s : State) : State :=
  { s with pending := .issue w :: s.pending }

end Sys2Proof.Machine
end

