-- ==== Sys2Proof/Machine/Step.lean ====
section
/-! DEFINITION. One step of the block and its host (spec/00_scope.md R2; spec/20_memory.md R50). -/

namespace Sys2Proof.Machine

/-- One step: the host's next action, performed. -/
def step (s : State) : Host.Outcome State Fault Refusal := stepOnce s

/-- The state in which the very next step issues the word whose bits are `w`: there is no program
counter, "a command word is supplied by the host with the issue action itself"
(spec/20_memory.md R54). Log entries 1 and 17. -/
def State.withFetchWord (s : State) (nbits w : Nat) : State := s.issueNext (tableWord nbits w)

end Sys2Proof.Machine
end

