-- ==== Sys2Proof/Safety.lean ====
section
/-! DEFINITION. The terms the claims use: the registers each command reads and writes
(spec/10_state.md R10), the legal values of `STATUS` (R18), agreement of two states, and the
binary64 magnitudes (spec/00_scope.md R9). -/

namespace Sys2Proof.Machine

/-- `STATUS` as R18 allows it: the reserved field zero, and `FC` not 4 to 7, which "are never
produced". -/
def State.statusLegal (s : State) : Prop := s.statusReserved = 0#5 ∧ s.fc.toNat ≤ 3

/-- The twelve places of `TXT`. -/
def txtRegs : List Reg := (List.finRange 12).map Reg.txt

/-- The registers a command can write when it succeeds: the column "written by commands" of R10,
read by row of command. Every command writes `STATUS`. -/
def writesOf : Instr → List Reg
  | .nop => [.status]
  | .qnt => [.qlat, .qlon, .status]
  | .dqnt => [.lat, .lon, .status]
  | .spread => [.code, .status]
  | .squash => [.code, .status]
  | .ilv => [.code, .status]
  | .dilv => [.qlat, .qlon, .status]
  | .menc => [.qlat, .qlon, .code, .status]
  | .mdec _ => [.lat, .lon, .qlat, .qlon, .status]
  | .trunc _ => [.code, .status]
  | .b32e => txtRegs ++ [.tlen, .status]
  | .b32d => [.code, .status]
  | .geohash _ => txtRegs ++ [.qlat, .qlon, .code, .tlen, .status]
  | .locate => [.lat, .lon, .qlat, .qlon, .code, .nbits, .status]
  | .bits _ => [.nbits, .status]
  | .prec _ => [.nbits, .status]
  | .err _ => [.elat, .elon, .status]

/-- The registers a command reads: the column "read by commands" of R10. -/
def readsOf : Instr → List Reg
  | .nop => []
  | .qnt => [.lat, .lon]
  | .dqnt => [.qlat, .qlon]
  | .spread => [.code]
  | .squash => [.code]
  | .ilv => [.qlat, .qlon]
  | .dilv => [.code]
  | .menc => [.lat, .lon]
  | .mdec _ => [.code]
  | .trunc _ => [.code]
  | .b32e => [.code]
  | .b32d => txtRegs ++ [.tlen]
  | .geohash _ => [.lat, .lon]
  | .locate => txtRegs ++ [.tlen]
  | .bits _ => []
  | .prec _ => []
  | .err _ => []

/-- The commands that quantise, and so may use a draw (R82). -/
def quantises : Instr → Bool
  | .qnt | .menc | .geohash _ => true
  | .nop | .dqnt | .spread | .squash | .ilv | .dilv | .mdec _ | .trunc _ | .b32e | .b32d | .locate
  | .bits _ | .prec _ | .err _ => false

/-- Two states hold the same values in these registers. -/
def agreeOn (rs : List Reg) (s t : State) : Prop := ∀ r ∈ rs, s.hostRead r = t.hostRead r

/-- The status after a command that did not fault: `FC = 0`, the reserved bits not written
(R18, R205). -/
def succeeded (s t : State) : Prop := t.fc = 0#3 ∧ t.statusReserved = s.statusReserved

/-- The character of place `k` of the text is a base32 character: a byte of the alphabet of R140. -/
def charValid (s : State) (k : Fin 12) : Prop := s.txt[k] ∈ romEnc

/-- The first `TLEN` characters are base32 characters. -/
def textValid (s : State) : Prop := ∀ k : Fin 12, k.val < s.textLength → charValid s k

/-- A magnitude, in units of `2^-1074`, that binary64 can represent but for its upper bound: at most
53 significant bits (R9). -/
def fpRepresentable (m : Nat) : Prop := ∃ c e : Nat, c < 2 ^ 53 ∧ m = c * 2 ^ e

/-- Distance of the whole number `m` from `num / den`, times `den`. -/
def distanceTimes (m num den : Nat) : Nat := ((m * den : Nat) - (num : Nat) : Int).natAbs

end Sys2Proof.Machine
end

