-- ==== Sys2Proof/Certificates/Slice0/Obligations.lean ====
section
/-! DEFINITION. The statements for the provers. Each docstring names the rules of spec/ it
formalises. A next state is written as the old one with named fields replaced, so that each
statement of a result is also the statement of its frame. -/

open Sys2Proof Sys2Proof.Machine

/-! ### Encoding -/

/-- Words of 95_test_vectors.md section 2.7 and of each family, decoded by hand from R60 to R64. -/
def Obligations.WordsOfEachFamilyDecode : Prop :=
  decode 0x0000#16 = .command .nop ∧ decode 0x0100#16 = .command .qnt ∧
  decode 0x0300#16 = .command .spread ∧ decode 0x0700#16 = .command .menc ∧
  decode 0x0841#16 = .command (.mdec 65) ∧ decode 0x0B00#16 = .command .b32d ∧
  decode 0x0C19#16 = .command (.geohash 25) ∧ decode 0x107F#16 = .command (.err 127) ∧
  decode 0x0001#16 = .reserved .immediateNotZero ∧ decode 0x0880#16 = .reserved .bit7Set ∧
  decode 0x1100#16 = .reserved .unassignedOp ∧ decode 0xFFFF#16 = .reserved .unassignedOp

/-- Decoding an encoded well-formed command gives it back (R60 to R64). -/
def Obligations.DecodeOfEncodeIsTheCommand : Prop :=
  ∀ i : Instr, i.wellFormed = true → decode (encode i) = .command i

/-- A word that decodes to a command is that command's word, and the command is well-formed: no
second spelling exists (R60 to R64, R69). -/
def Obligations.EncodeOfDecodeIsTheWord : Prop :=
  ∀ (w : CommandWord) (i : Instr), decode w = .command i → encode i = w ∧ i.wellFormed = true

/-- R64: "a word `w` selects the row for which `w & mask = match`. At most one row matches any word."
A word is a command exactly when it selects a row of the opcode map, and then it is that row's. -/
def Obligations.DecodeFollowsTheOpcodeMap : Prop :=
  (∀ (w : CommandWord) (r r' : OpcodeRow), r ∈ opcodeTable → r' ∈ opcodeTable →
    r.selects w = true → r'.selects w = true → r = r') ∧
  (∀ w : CommandWord, (∃ i, decode w = .command i) ↔ ∃ r ∈ opcodeTable, r.selects w = true) ∧
  (∀ (w : CommandWord) (i : Instr) (r : OpcodeRow), decode w = .command i → r ∈ opcodeTable →
    r.selects w = true → r.mnemonic = i.mnemonic)

/-- R63, R66: a format I word is a command for every value of `imm7`, and its immediate is
`zext(w[6:0])`; a count its operation refuses is `InvalidBitCount`, not `IllegalCommand`. -/
def Obligations.FormatIWordIsACommandForEveryImmediate : Prop :=
  (∀ imm : BitVec 7,
    decode (0x08#8 ++ 0#1 ++ imm) = .command (.mdec imm.toNat) ∧
    decode (0x09#8 ++ 0#1 ++ imm) = .command (.trunc imm.toNat) ∧
    decode (0x0C#8 ++ 0#1 ++ imm) = .command (.geohash imm.toNat) ∧
    decode (0x0E#8 ++ 0#1 ++ imm) = .command (.bits imm.toNat) ∧
    decode (0x0F#8 ++ 0#1 ++ imm) = .command (.prec imm.toNat) ∧
    decode (0x10#8 ++ 0#1 ++ imm) = .command (.err imm.toNat)) ∧
  (∀ s : State, ∃ t, issue 0x0C03#16 s = .next t ∧ t.fc = 1#3)

/-! ### The step -/

/-- A step issues the word the host issues next, whatever word it is, on the state without that
action: the command it decodes to runs, and a reserved word takes `Fault(IllegalCommand)` (R2, R65,
R71, R203). `withFetchWord` puts such a word there (R54). That the host's next action is held in the
state is the model's choice (DESIGN CHOICE, log entry 1). -/
def Obligations.StepRunsTheDecodedCommand : Prop :=
  (∀ (s : State) (w : CommandWord) (rest : List Action), s.pending = .issue w :: rest →
    step s = issue w { s with pending := rest } ∧
    (∀ i, decode w = .command i → step s = exec i { s with pending := rest }) ∧
    (∀ why, decode w = .reserved why →
      ∃ t, step s = .next t ∧ t = { s with pending := rest, status := t.status } ∧ t.fc = 3#3 ∧
        t.statusReserved = s.statusReserved)) ∧
  (∀ (s : State) (nbits w : Nat),
    step (s.withFetchWord nbits w) = issue (tableWord nbits w) s ∧
    ∀ i, decodeTableWord nbits w = some i → step (s.withFetchWord nbits w) = exec i s)

/-- The other actions of a step: a host write, a host read, a reset, and waiting when the host asks
nothing (R2, R19, R230, R231). How the host's side is held is the model's choice (DESIGN CHOICE, log
entries 1, 2, 4, 14). -/
def Obligations.StepPerformsTheOtherHostActions : Prop :=
  ∀ (s : State) (rest : List Action),
    (∀ v, s.pending = .write v :: rest →
      step s = .next (({ s with pending := rest } : State).hostWrite v)) ∧
    (∀ r, s.pending = .read r :: rest →
      step s = .next { s with pending := rest, answer := some (s.hostRead r) }) ∧
    (s.pending = .reset :: rest → ∃ t, step s = .next t ∧ t.pending = rest ∧
      t.answer = s.answer ∧ t.draws = s.draws) ∧
    (s.pending = [] → step s = .next s)

/-- No state stops the machine: "The block is ready for the next host action at once" (R204), and
with no action it waits (R231). DEDUCED, log entry 13. -/
def Obligations.EveryStepAnswersANextState : Prop :=
  ∀ s : State, ∃ t, step s = .next t

/-- R18: in every run `STATUS` keeps its reserved bits zero and `FC` one of 0 to 3: whatever step is
taken from a state in which that holds, it holds after. -/
def Obligations.EveryStepKeepsStatusLegal : Prop :=
  ∀ s t : State, s.statusLegal → step s = .next t → t.statusLegal

/-- The reset state meets the invariant of `EveryStepKeepsStatusLegal` (R18, R25). -/
def Obligations.ResetStatusIsLegal : Prop := State.reset.statusLegal

/-! ### Reset and host access -/

/-- R25: "every register holds zero" after reset. -/
def Obligations.ResetStateIsAllZero : Prop :=
  State.reset.lat = 0#64 ∧ State.reset.lon = 0#64 ∧ State.reset.qlat = 0#32 ∧
  State.reset.qlon = 0#32 ∧ State.reset.code = 0#64 ∧ State.reset.nbits = 0#16 ∧
  State.reset.elat = 0#64 ∧ State.reset.elon = 0#64 ∧ (∀ i : Fin 12, State.reset.txt[i] = 0x00#8) ∧
  State.reset.tlen = 0#4 ∧ State.reset.status = 0x00#8

/-- R230: the reset event gives every register its reset value, from any state, as one step. -/
def Obligations.ResetEventGivesEveryRegisterItsResetValue : Prop :=
  ∀ (s : State) (rest : List Action), s.pending = .reset :: rest →
    ∃ t, step s = .next t ∧ (∀ r, t.hostRead r = State.reset.hostRead r) ∧
      t.status = State.reset.status

/-- R19: a host write replaces the whole of one register, changes no other and never `STATUS`; a
read returns the register and changes nothing of the block. Where the answer is kept is the model's
choice (DESIGN CHOICE, log entry 2). -/
def Obligations.HostWriteChangesOneRegisterAndReadNone : Prop :=
  (∀ (s : State) (rest : List Action) (v : RegValue), s.pending = .write v :: rest →
    (∀ x, v ≠ .status x) →
    ∃ t r, step s = .next t ∧ r ≠ .status ∧ t.hostRead r = v ∧
      (∀ r', r' ≠ r → t.hostRead r' = s.hostRead r') ∧ t.status = s.status ∧ t.draws = s.draws) ∧
  (∀ (s : State) (rest : List Action) (r : Reg), s.pending = .read r :: rest →
    ∃ t, step s = .next t ∧ t.answer = some (s.hostRead r) ∧
      ∀ r', t.hostRead r' = s.hostRead r')

/-- R18: host writes to `STATUS` are ignored; a read of it gives `FC` with bits 7:3 zero; every issued
word leaves `FC` at 0 to 3 and writes no reserved bit; and it overwrites `FC` with its own outcome,
success included: whatever code stood there, the state after is the same. -/
def Obligations.StatusIsReadOnlyAndNeverSticky : Prop :=
  (∀ (s : State) (x : Byte), s.hostWrite (.status x) = s) ∧
  (∀ s : State, s.hostRead .status = .status (0#5 ++ s.fc)) ∧
  (∀ (w : CommandWord) (s : State), ∃ t, issue w s = .next t ∧ t.fc.toNat ≤ 3 ∧
    t.statusReserved = s.statusReserved) ∧
  (∀ (w : CommandWord) (s : State) (c : FaultCode), issue w (s.setFC c) = issue w s)

/-! ### Faults -/

/-- R203: a word that matches no row of the opcode map ends with code 3; nothing else changes. -/
def Obligations.ReservedWordRaisesIllegalCommand : Prop :=
  ∀ (w : CommandWord) (s : State), (∀ r ∈ opcodeTable, r.selects w = false) →
    ∃ t, issue w s = .next t ∧ t = { s with status := t.status } ∧ t.fc = 3#3 ∧
      t.statusReserved = s.statusReserved

/-- R204: a fault changes `STATUS.FC` and no other register, in every command. -/
def Obligations.FaultChangesOnlyTheStatusCode : Prop :=
  ∀ (w : CommandWord) (s t : State), issue w s = .next t → t.fc ≠ 0#3 →
    t = { s with status := t.status } ∧ t.statusReserved = s.statusReserved

/-- R205, R23, R207: no command reads the code an earlier one left; "the next issued word, whatever it
is, replaces it". A faulted word, issued again after the host has written a register, does what it
would have done "as if the faulted attempt had not happened". -/
def Obligations.EarlierFaultCodeDoesNotPersist : Prop :=
  (∀ (w : CommandWord) (s : State) (c : FaultCode), issue w (s.setFC c) = issue w s) ∧
  (∀ (w w' : CommandWord) (s t : State) (v : RegValue), issue w s = .next t → t.fc ≠ 0#3 →
    issue w' (t.hostWrite v) = issue w' (s.hostWrite v))

/-- R200: the outcomes of an issued word, and which commands raise which. -/
def Obligations.OutcomeCodesByCommand : Prop :=
  ∀ (w : CommandWord) (s : State), ∃ t, issue w s = .next t ∧
    (t.fc = 0#3 ∨ t.fc = 1#3 ∨ t.fc = 2#3 ∨ t.fc = 3#3) ∧
    (t.fc = 1#3 → ∃ i, decode w = .command i ∧
      i.mnemonic ∈ ["GEOHASH", "LOCATE", "B32D", "MDEC", "TRUNC"]) ∧
    (t.fc = 2#3 → ∃ i, decode w = .command i ∧ i.mnemonic ∈ ["B32D", "LOCATE"]) ∧
    (t.fc = 3#3 ↔ ∃ why, decode w = .reserved why) ∧
    (t.fc ≠ 0#3 → t = { s with status := t.status })

/-- R201: the causes of `InvalidBitCount`, "each exactly". -/
def Obligations.InvalidBitCountCauses : Prop :=
  ∀ (i : Instr) (s : State), ∃ t, exec i s = .next t ∧
    (t.fc = 1#3 ↔
      match i with
      | .geohash imm => imm < 5 ∨ imm > 60
      | .locate => s.tlen.toNat = 0 ∨ s.tlen.toNat > 12
      | .b32d => s.tlen.toNat > 12
      | .mdec imm => imm > 64
      | .trunc imm => imm > 64
      | .nop | .qnt | .dqnt | .spread | .squash | .ilv | .dilv | .menc | .b32e | .bits _ | .prec _
      | .err _ => False)

/-- R202: the cause of `InvalidBase32`: a character among the first `TLEN` below 0x30, above 0x7A, or
with an invalid entry; bytes at or beyond `TXT[TLEN]` never cause it. -/
def Obligations.InvalidBase32Causes : Prop :=
  ∀ (i : Instr) (s : State), ∃ t, exec i s = .next t ∧
    (t.fc = 2#3 ↔
      ((i = .b32d ∧ s.tlen.toNat ≤ 12) ∨ (i = .locate ∧ 1 ≤ s.tlen.toNat ∧ s.tlen.toNat ≤ 12)) ∧
      ∃ k : Fin 12, k.val < s.tlen.toNat ∧
        (s.txt[k].toNat < 0x30 ∨ s.txt[k].toNat > 0x7A ∨
          romDec[s.txt[k].toNat - 0x30]? = some 0xFF#8))

/-- R206: `IllegalCommand` before `InvalidBitCount` before `InvalidBase32`. -/
def Obligations.FirstFailingCheckIsReported : Prop :=
  (∀ (w : CommandWord) (why : Reserved) (s : State), decode w = .reserved why →
    ∃ t, issue w s = .next t ∧ t.fc = 3#3) ∧
  (∀ s : State, s.tlen.toNat > 12 →
    (∃ t, exec .b32d s = .next t ∧ t.fc = 1#3) ∧ (∃ t, exec .locate s = .next t ∧ t.fc = 1#3)) ∧
  (∀ s : State, 1 ≤ s.tlen.toNat → s.tlen.toNat ≤ 12 → ¬ textValid s →
    (∃ t, exec .b32d s = .next t ∧ t.fc = 2#3) ∧ (∃ t, exec .locate s = .next t ∧ t.fc = 2#3))

/-! ### What a command reads and writes -/

/-- R10: a command changes no register outside its "written by" entry; the host's side never
changes, and only a quantising command uses up draws. -/
def Obligations.CommandWritesOnlyItsRegisters : Prop :=
  ∀ (i : Instr) (s : State), ∃ t, exec i s = .next t ∧
    (∀ r, r ∉ writesOf i → t.hostRead r = s.hostRead r) ∧
    t.pending = s.pending ∧ t.answer = s.answer ∧ (quantises i = false → t.draws = s.draws)

/-- R24: "The result of a command is a function of the command word and the registers rule R10 says it
reads, and of nothing else, except where a rule names a draw". Two states that agree on those
registers (and, for a quantising command, on the draw count) get the same outcome and, when the
command succeeds, the same results. That equal draw counts give equal draws is the model's choice,
no promise of R82 (DESIGN CHOICE, log entry 3). -/
def Obligations.ResultDependsOnlyOnTheRegistersRead : Prop :=
  ∀ (i : Instr) (s s' : State), agreeOn (readsOf i) s s' →
    (quantises i = true → s.draws = s'.draws) →
    ∃ t t', exec i s = .next t ∧ exec i s' = .next t' ∧ t.fc = t'.fc ∧
      (t.fc = 0#3 → agreeOn (writesOf i) t t')

/-- R70: NOP writes `STATUS.FC <- 0` only. -/
def Obligations.NopOnlyClearsTheStatusCode : Prop :=
  ∀ s : State, ∃ t, exec .nop s = .next t ∧ t = { s with status := t.status } ∧ succeeded s t

/-! ### Binary64 arithmetic and the quantiser -/

/-- R9: each operation rounds "once, to nearest with ties to even": the rounding of `num / den` is
representable, no representable magnitude is nearer, and if another is as near the chosen one has an
even last significand bit. -/
def Obligations.RoundingIsToNearestTiesToEven : Prop :=
  ∀ num den : Nat, 0 < den →
    fpRepresentable (roundUnits num den) ∧
    ∀ m, fpRepresentable m →
      distanceTimes (roundUnits num den) num den ≤ distanceTimes m num den ∧
      (m ≠ roundUnits num den →
        distanceTimes (roundUnits num den) num den = distanceTimes m num den →
        (roundUnits num den / fpSpacing (num / den)) % 2 = 0)

/-- R84, R82: QNT runs on every input, each coordinate on its own: in range it writes the quantiser's
value, out of range a draw, with no fault and nothing else changed. The form of the draw, a free
value indexed by a counter, is the model's own (DESIGN CHOICE, log entry 3). -/
def Obligations.QntWritesEachCoordinateOnItsOwn : Prop :=
  ∀ s : State, ∃ t, exec .qnt s = .next t ∧
    t = { s with qlat := t.qlat, qlon := t.qlon, status := t.status, draws := t.draws } ∧
    succeeded s t ∧
    (∀ q, quantLat? s.lat = some q → t.qlat = q) ∧
    (∀ q, quantLon? s.lon = some q → t.qlon = q) ∧
    (quantLat? s.lat = none → t.qlat = Config.quantDraw s.draws) ∧
    (quantLon? s.lon = none → t.qlon = Config.quantDraw (s.draws + 1)) ∧
    t.draws > s.draws + 1

/-- R83: which latitudes and longitudes are in range, from the lower end upward. Exactly one in-domain
latitude and one in-domain longitude are out of range; everything at or above the upper end is, and
so are NaN and the infinities. Finite inputs below the lower end are those of
`TruncationIsTowardZeroBelowTheLowerEnd`. The spec marks R83 as derived. `fpOne` units are one
degree. -/
def Obligations.ExactlyOneInDomainInputOfEachKindIsOutOfRange : Prop :=
  (∀ (v : Code) (k : Int), realUnits? v = some k → -90 * fpOne ≤ k → k < 90 * fpOne →
    (quantLat? v = none ↔ v = 0x40567FFFFFFFFFFF#64)) ∧
  (∀ (v : Code) (k : Int), realUnits? v = some k → -180 * fpOne ≤ k → k < 180 * fpOne →
    (quantLon? v = none ↔ v = 0x40667FFFFFFFFFFF#64)) ∧
  (∀ (v : Code) (k : Int), realUnits? v = some k → 90 * fpOne ≤ k → quantLat? v = none) ∧
  (∀ (v : Code) (k : Int), realUnits? v = some k → 180 * fpOne ≤ k → quantLon? v = none) ∧
  (∀ v : Code, realUnits? v = none → quantLat? v = none ∧ quantLon? v = none)

/-- R83, R80, R240: below the lower end. "A value below the lower end whose `real(p)` is above -1" is in
range and gives 0, by truncation toward zero; "a value whose `real(p) <= -1`" is out of range. In
terms of the input: it gives 0 while it lies less than one fixed-point step (`span / 2^32` degrees)
below the end, and is out of range from there down. The spec marks R83 as derived. -/
def Obligations.TruncationIsTowardZeroBelowTheLowerEnd : Prop :=
  (∀ (v : Code) (k : Int), realUnits? v = some k → k < -90 * fpOne →
    (quantLat? v = some 0#32 ↔ -180 * fpOne < (k + 90 * fpOne) * 2 ^ 32) ∧
    (quantLat? v = none ↔ (k + 90 * fpOne) * 2 ^ 32 ≤ -180 * fpOne) ∧
    (∀ m : Nat, quantScaled v pattern90 pattern180 = .fin true m →
      (quantLat? v = some 0#32 ↔ m < fpOne))) ∧
  (∀ (v : Code) (k : Int), realUnits? v = some k → k < -180 * fpOne →
    (quantLon? v = some 0#32 ↔ -360 * fpOne < (k + 180 * fpOne) * 2 ^ 32) ∧
    (quantLon? v = none ↔ (k + 180 * fpOne) * 2 ^ 32 ≤ -360 * fpOne) ∧
    (∀ m : Nat, quantScaled v pattern180 pattern360 = .fin true m →
      (quantLon? v = some 0#32 ↔ m < fpOne)))

/-- R80, R87: for an in-range input the quantiser's integer lies between the floor and the ceiling of
the exact scaled value `(real(v) + off) / span * 2^32`: it never rounds down past a whole step, and
up by less than one. The spec marks R87 as derived; this is the part that needs no bound `2^-19`. -/
def Obligations.QuantiserLiesBetweenFloorAndCeiling : Prop :=
  (∀ (v : Code) (k : Int) (q : Fixed), realUnits? v = some k → -90 * fpOne ≤ k →
    quantLat? v = some q →
    (k + 90 * fpOne) * 2 ^ 32 < (q.toNat + 1) * (180 * fpOne) ∧
    (q.toNat - 1) * (180 * (fpOne : Int)) < (k + 90 * fpOne) * 2 ^ 32) ∧
  (∀ (v : Code) (k : Int) (q : Fixed), realUnits? v = some k → -180 * fpOne ≤ k →
    quantLon? v = some q →
    (k + 180 * fpOne) * 2 ^ 32 < (q.toNat + 1) * (360 * fpOne) ∧
    (q.toNat - 1) * (360 * (fpOne : Int)) < (k + 180 * fpOne) * 2 ^ 32)

/-- R87: the computed scaled value of an in-domain input, `real(p)`, differs from the exact one by less
than `2^-19`. The spec marks R87 as derived. -/
def Obligations.ScaledValueIsWithinTwoToMinus19 : Prop :=
  (∀ (v : Code) (k : Int), realUnits? v = some k → -90 * fpOne ≤ k → k < 90 * fpOne →
    ∃ m : Nat, quantScaled v pattern90 pattern180 = .fin false m ∧
      |(m : Int) * 180 - (k + 90 * fpOne) * 2 ^ 32| * 2 ^ 19 < 180 * (fpOne : Int)) ∧
  (∀ (v : Code) (k : Int), realUnits? v = some k → -180 * fpOne ≤ k → k < 180 * fpOne →
    ∃ m : Nat, quantScaled v pattern180 pattern360 = .fin false m ∧
      |(m : Int) * 360 - (k + 180 * fpOne) * 2 ^ 32| * 2 ^ 19 < 360 * (fpOne : Int))

/-- R85, R86: DQNT writes the exact reals `q * span / 2^32 - off` as patterns, a zero as plus zero, and
changes nothing else. -/
def Obligations.DqntWritesTheExactReals : Prop :=
  ∀ s : State, ∃ t, exec .dqnt s = .next t ∧
    t = { s with lat := t.lat, lon := t.lon, status := t.status } ∧ succeeded s t ∧
    (∃ la, realUnits? t.lat = some la ∧ la * 2 ^ 32 = (s.qlat.toNat * 180 - 90 * 2 ^ 32) * fpOne) ∧
    (∃ lo, realUnits? t.lon = some lo ∧
      lo * 2 ^ 32 = (s.qlon.toNat * 360 - 180 * 2 ^ 32) * fpOne) ∧
    (s.qlat = 0x80000000#32 → t.lat = 0#64) ∧ (s.qlon = 0x80000000#32 → t.lon = 0#64)

/-- R88: QNT after DQNT gives back `QLAT` and `QLON`, for every pair. The spec checked it on samples
and asks a model to prove or refute it (93 U16). -/
def Obligations.QntAfterDqntRestoresTheProjections : Prop :=
  ∀ s : State, ∃ t u, exec .dqnt s = .next t ∧ exec .qnt t = .next u ∧
    u.qlat = s.qlat ∧ u.qlon = s.qlon

/-! ### The bit-spread unit -/

/-- R100, R106: SPREAD puts bit `i` of `CODE[31:0]` at bit `2i` and clears the odd bits. -/
def Obligations.SpreadPlacesEachBitAtTwiceItsIndex : Prop :=
  ∀ s : State, ∃ t, exec .spread s = .next t ∧
    t = { s with code := t.code, status := t.status } ∧ succeeded s t ∧
    ∀ i, i < 32 → t.code.getLsbD (2 * i) = s.code.getLsbD i ∧ t.code.getLsbD (2 * i + 1) = false

/-- R102, R107: SQUASH takes the even bits of `CODE` to its low half and clears the high half. -/
def Obligations.SquashGathersTheEvenBits : Prop :=
  ∀ s : State, ∃ t, exec .squash s = .next t ∧
    t = { s with code := t.code, status := t.status } ∧ succeeded s t ∧
    ∀ i, i < 32 → t.code.getLsbD i = s.code.getLsbD (2 * i) ∧ t.code.getLsbD (32 + i) = false

/-- R101, R103: the five-stage networks compute the functions of R100 and R102 (the equality the spec
calls "a lemma to prove"). -/
def Obligations.NetworksEqualTheBitFunctions : Prop :=
  (∀ x : Fixed, spreadNetwork x = spread x) ∧ (∀ y : Code, squashNetwork y = squash y)

/-- R102: `squash(y)[i] = y[2i]`, `squash(spread(x)) = x`, `spread(squash(y)) = y & 0x5555555555555555`. -/
def Obligations.SquashInvertsSpread : Prop :=
  (∀ (y : Code) (i : Nat), i < 32 → (squash y).getLsbD i = y.getLsbD (2 * i)) ∧
  (∀ x : Fixed, squash (spread x) = x) ∧
  (∀ y : Code, spread (squash y) = y &&& 0x5555555555555555#64)

/-- R104, R108: ILV puts latitude at the even positions and longitude at the odd ones; the two spread
values have no set bit in common. -/
def Obligations.IlvPutsLatitudeEvenAndLongitudeOdd : Prop :=
  ∀ s : State, ∃ t, exec .ilv s = .next t ∧
    t = { s with code := t.code, status := t.status } ∧ succeeded s t ∧
    (∀ i, i < 32 → t.code.getLsbD (2 * i) = s.qlat.getLsbD i ∧
      t.code.getLsbD (2 * i + 1) = s.qlon.getLsbD i) ∧
    spread s.qlat &&& shl64 (spread s.qlon) 1 = 0#64

/-- R105, R109: DILV is the inverse of ILV, both ways round, and changes nothing but the two
projections. -/
def Obligations.DilvAndIlvAreInverse : Prop :=
  ∀ s : State,
    (∃ t u, exec .dilv s = .next t ∧
      t = { s with qlat := t.qlat, qlon := t.qlon, status := t.status } ∧ succeeded s t ∧
      (∀ i, i < 32 → t.qlat.getLsbD i = s.code.getLsbD (2 * i) ∧
        t.qlon.getLsbD i = s.code.getLsbD (2 * i + 1)) ∧
      exec .ilv t = .next u ∧ u.code = s.code) ∧
    (∃ t u, exec .ilv s = .next t ∧ exec .dilv t = .next u ∧ u.qlat = s.qlat ∧ u.qlon = s.qlon)

/-! ### Morton codes -/

/-- R120, R121: "MENC has exactly the effect of QNT followed by ILV, as one atomic command", on every
input; each coordinate in range is quantised, and `CODE` is the interleaving of the two. For a
coordinate out of range, that MENC draws what QNT would draw is the model's choice, no promise of
R82 (DESIGN CHOICE, log entry 3). -/
def Obligations.MencIsQntThenIlv : Prop :=
  ∀ s : State, ∃ t u, exec .qnt s = .next t ∧ exec .ilv t = .next u ∧ exec .menc s = .next u ∧
    u = { s with qlat := u.qlat, qlon := u.qlon, code := u.code, status := u.status,
                 draws := u.draws } ∧
    succeeded s u ∧ u.code = interleave u.qlat u.qlon ∧
    (∀ q, quantLat? s.lat = some q → u.qlat = q) ∧ (∀ q, quantLon? s.lon = some q → u.qlon = q)

/-- R122 to R124, R85: MDEC `b` for `b <= 64` de-interleaves `CODE` shifted left by `64 - b` and writes
the exact reals, a zero as plus zero; above 64 it raises `InvalidBitCount` and changes nothing else. -/
def Obligations.MdecDecodesTheLowBits : Prop :=
  ∀ (b : Nat) (s : State),
    (b ≤ 64 → ∃ t, exec (.mdec b) s = .next t ∧
      t = { s with qlat := t.qlat, qlon := t.qlon, lat := t.lat, lon := t.lon,
                   status := t.status } ∧
      succeeded s t ∧
      (∀ i, i < 32 →
        t.qlat.getLsbD i = (decide (64 - b ≤ 2 * i) && s.code.getLsbD (2 * i - (64 - b))) ∧
        t.qlon.getLsbD i = (decide (64 - b ≤ 2 * i + 1) && s.code.getLsbD (2 * i + 1 - (64 - b)))) ∧
      (∃ la, realUnits? t.lat = some la ∧
        la * 2 ^ 32 = (t.qlat.toNat * 180 - 90 * 2 ^ 32) * fpOne) ∧
      (∃ lo, realUnits? t.lon = some lo ∧
        lo * 2 ^ 32 = (t.qlon.toNat * 360 - 180 * 2 ^ 32) * fpOne) ∧
      (t.qlat = 0x80000000#32 → t.lat = 0#64) ∧ (t.qlon = 0x80000000#32 → t.lon = 0#64)) ∧
    (64 < b → ∃ t, exec (.mdec b) s = .next t ∧ t = { s with status := t.status } ∧ t.fc = 1#3)

/-- R125, R126: TRUNC `b` for `b <= 64` keeps the `b` most significant bits of `CODE` where they are and
clears the rest; above 64 it raises `InvalidBitCount` and changes nothing else. "Truncating to `b1` then
`b2` equals truncating to the smaller of the two", and two codes truncate alike exactly when they
agree in the top `b` bits. -/
def Obligations.TruncKeepsTheTopBits : Prop :=
  (∀ (b : Nat) (s : State),
    (b ≤ 64 → ∃ t, exec (.trunc b) s = .next t ∧
      t = { s with code := t.code, status := t.status } ∧ succeeded s t ∧
      t.code.toNat = s.code.toNat / 2 ^ (64 - b) * 2 ^ (64 - b)) ∧
    (64 < b → ∃ t, exec (.trunc b) s = .next t ∧ t = { s with status := t.status } ∧
      t.fc = 1#3)) ∧
  (∀ (b1 b2 : Nat) (s : State), b1 ≤ 64 → b2 ≤ 64 → ∃ t u, exec (.trunc b1) s = .next t ∧
    exec (.trunc b2) t = .next u ∧ exec (.trunc (min b1 b2)) s = .next u) ∧
  (∀ (b : Nat) (s s' t t' : State), b ≤ 64 → exec (.trunc b) s = .next t →
    exec (.trunc b) s' = .next t' →
    (t.code = t'.code ↔ s.code.toNat / 2 ^ (64 - b) = s'.code.toNat / 2 ^ (64 - b)))

/-- R127 (a): decoding the right-aligned top `b` bits with count `b` is decoding the truncated code as
it stands. The spec marks R127 as derived. -/
def Obligations.MdecOfRightAlignedIsMdecOfTruncated : Prop :=
  ∀ (b : Nat) (s : State) (c : Code), b ≤ 64 →
    ∃ t u, exec (.mdec b) { s with code := shr64 (c &&& tmask b) (64 - b) } = .next t ∧
      exec (.mdec 64) { s with code := c &&& tmask b } = .next u ∧
      t.qlat = u.qlat ∧ t.qlon = u.qlon ∧ t.lat = u.lat ∧ t.lon = u.lon

/-- R127 (b), R187: truncating to `b` bits moves the decoded point down by less than the cell size
`(180 * 2^-floor(b/2), 360 * 2^-(b - floor(b/2)))` and never up. The spec marks R127 as derived. -/
def Obligations.TruncationErrorIsBelowTheCellSize : Prop :=
  ∀ (b : Nat) (c : Code), b ≤ 64 →
    ∃ la la' lo lo' : Int,
      realUnits? (dequantLat (latOfCode c)) = some la ∧
      realUnits? (dequantLat (latOfCode (c &&& tmask b))) = some la' ∧
      realUnits? (dequantLon (lonOfCode c)) = some lo ∧
      realUnits? (dequantLon (lonOfCode (c &&& tmask b))) = some lo' ∧
      0 ≤ la - la' ∧ (la - la') * 2 ^ (b / 2) < 180 * fpOne ∧
      0 ≤ lo - lo' ∧ (lo - lo') * 2 ^ (b - b / 2) < 360 * fpOne

/-- R127 (c), R239: a decoded point encodes back to the same code. The spec checked it on samples and
did not prove it. -/
def Obligations.MencAfterMdecRestoresTheCode : Prop :=
  ∀ s : State, ∃ t u, exec (.mdec 64) s = .next t ∧ exec .menc t = .next u ∧ u.code = s.code

/-- R44: `BE8(v)[k] = v[63-8k : 56-8k]`, 8 bytes, the most significant first. -/
def Obligations.ExportedCodeIsBigEndian : Prop :=
  (∀ v : Code, (be8 v).length = 8 ∧
    ∀ k, k < 8 → (be8 v)[k]? = some (v.extractLsb (63 - 8 * k) (56 - 8 * k) |>.setWidth 8)) ∧
  (∀ v : Code, (be8 v).foldl (fun n b => n * 256 + b.toNat) 0 = v.toNat) ∧
  be8 0x65971C3400D40000#64 =
    [0x65#8, 0x97#8, 0x1C#8, 0x34#8, 0x00#8, 0xD4#8, 0x00#8, 0x00#8]

/-! ### Base32 -/

/-- R41, R42: `ROM_ENC` has 32 entries, `ROM_DEC` 75; entry `k` of `ROM_DEC` is the digit `d` with
`ROM_ENC[d] = 0x30 + k` when there is one, and `0xFF` otherwise. -/
def Obligations.DecodeTableInvertsEncodeTable : Prop :=
  romEnc = "0123456789bcdefghjkmnpqrstuvwxyz".toList.map (fun c => BitVec.ofNat 8 c.toNat) ∧
  romEnc.length = 32 ∧ romDec.length = 75 ∧
  ∀ k, k < 75 →
    (∀ d, d < 32 → (romDec[k]? = some (BitVec.ofNat 8 d) ↔
      romEnc[d]? = some (BitVec.ofNat 8 (0x30 + k)))) ∧
    (romDec[k]? = some 0xFF#8 ↔ BitVec.ofNat 8 (0x30 + k) ∉ romEnc)

/-- R143: the valid bytes are exactly the 32 of `ROM_ENC`; every other byte is invalid; `b32digit` is the
left inverse of that table. -/
def Obligations.ValidBytesAreExactlyTheAlphabet : Prop :=
  (∀ b : Byte, b32digit? b = none ↔ b ∉ romEnc) ∧
  (∀ (b : Byte) (d : Digit), b32digit? b = some d ↔ romEnc[d.toNat]? = some b)

/-- R141, R142: B32E writes twelve characters, character `i` that of the digit `CODE[59-5i : 55-5i]`, and
`TLEN = 12`; nothing else changes. -/
def Obligations.B32eWritesTwelveDigits : Prop :=
  ∀ s : State, ∃ t, exec .b32e s = .next t ∧
    t = { s with txt := t.txt, tlen := t.tlen, status := t.status } ∧ succeeded s t ∧
    t.tlen = 12#4 ∧
    ∀ i : Fin 12, romEnc[s.code.toNat / 2 ^ (55 - 5 * i.val) % 32]? = some t.txt[i]

/-- R144, R145: B32D on at most 12 characters, all valid, writes the number whose base-32 digits they
are, the first the most significant, right-aligned; nothing else changes. More than 12 raise
`InvalidBitCount`, an invalid one `InvalidBase32`, and nothing else changes. -/
def Obligations.B32dReadsTheDigits : Prop :=
  ∀ s : State,
    (s.textLength ≤ 12 → textValid s →
      ∃ (t : State) (ds : List Digit), exec .b32d s = .next t ∧
        t = { s with code := t.code, status := t.status } ∧
        succeeded s t ∧ ds.length = s.textLength ∧
        (∀ k : Fin 12, k.val < s.textLength →
          ∃ d : Digit, ds[k.val]? = some d ∧ romEnc[d.toNat]? = some s.txt[k]) ∧
        t.code.toNat = ds.foldl (fun n d => n * 32 + d.toNat) 0 ∧
        t.code.toNat < 2 ^ (5 * s.textLength)) ∧
    (12 < s.textLength →
      ∃ t, exec .b32d s = .next t ∧ t = { s with status := t.status } ∧ t.fc = 1#3) ∧
    (s.textLength ≤ 12 → ¬ textValid s →
      ∃ t, exec .b32d s = .next t ∧ t = { s with status := t.status } ∧ t.fc = 2#3)

/-- R144, R147 (a): B32E followed by B32D leaves `CODE[59:0]` as it was and clears `CODE[63:60]`. -/
def Obligations.B32dAfterB32eKeepsTheLow60Bits : Prop :=
  ∀ s : State, ∃ t u, exec .b32e s = .next t ∧ exec .b32d t = .next u ∧ u.fc = 0#3 ∧
    u.code = s.code &&& 0x0FFFFFFFFFFFFFFF#64

/-- R147 (b): B32D followed by B32E, when B32D succeeds with `TLEN = n`, yields `12 - n` characters `0`
and then the original `n` characters. The spec marks R147 as derived. -/
def Obligations.B32eAfterB32dRestoresTheText : Prop :=
  ∀ s : State, s.textLength ≤ 12 → textValid s →
    ∃ t u, exec .b32d s = .next t ∧ exec .b32e t = .next u ∧
      ∀ i : Fin 12,
        (i.val < 12 - s.textLength → u.txt[i] = 0x30#8) ∧
        (∀ k : Fin 12, i.val = 12 - s.textLength + k.val → u.txt[i] = s.txt[k])

/-- R147 (c): for digit strings of the same length, at most 12, the order of the decoded values is the
lexicographic order of the strings. The spec marks R147 as derived. -/
def Obligations.DecodedOrderIsLexicographic : Prop :=
  ∀ ds es : List Digit, ds.length = es.length → ds.length ≤ 12 →
    ((b32accumulate ds).toNat < (b32accumulate es).toNat ↔
      ds.map BitVec.toNat < es.map BitVec.toNat)

/-! ### Geohash -/

/-- R160, R161: GEOHASH `b` for `5 <= b <= 60` quantises each coordinate in range, interleaves, and
writes the text whose character `i` is the digit `m[63-5i : 59-5i]` of the code, `floor(b/5)`
characters, `0x00` after them; its `QLAT`, `QLON` and `CODE` are "those of MENC". Outside that range
it raises `InvalidBitCount` and changes nothing else. For a coordinate out of range, that GEOHASH
draws what MENC would draw is the model's choice, no promise of R82 (DESIGN CHOICE, log entry 3). -/
def Obligations.GeohashWritesThePrefixOfTheCode : Prop :=
  ∀ (b : Nat) (s : State),
    (5 ≤ b → b ≤ 60 → ∃ t u, exec (.geohash b) s = .next t ∧ exec .menc s = .next u ∧
      t = { u with txt := t.txt, tlen := t.tlen } ∧ t.tlen.toNat = b / 5 ∧ succeeded s t ∧
      (∀ q, quantLat? s.lat = some q → t.qlat = q) ∧
      (∀ q, quantLon? s.lon = some q → t.qlon = q) ∧ t.code = interleave t.qlat t.qlon ∧
      ∀ i : Fin 12,
        (i.val < b / 5 → romEnc[t.code.toNat / 2 ^ (59 - 5 * i.val) % 32]? = some t.txt[i]) ∧
        (b / 5 ≤ i.val → t.txt[i] = 0x00#8)) ∧
    (b < 5 ∨ 60 < b →
      ∃ t, exec (.geohash b) s = .next t ∧ t = { s with status := t.status } ∧ t.fc = 1#3)

/-- R161, corner case: "the text for a smaller `b` is a prefix of the text for a larger one", whatever the
point. For a coordinate out of range, that the two runs draw alike is the model's choice, no promise
of R82 (DESIGN CHOICE, log entry 3). -/
def Obligations.GeohashOfFewerBitsIsAPrefix : Prop :=
  ∀ (b b' : Nat) (s : State), 5 ≤ b → b ≤ b' → b' ≤ 60 →
    ∃ t t', exec (.geohash b) s = .next t ∧ exec (.geohash b') s = .next t' ∧
      t.tlen.toNat ≤ t'.tlen.toNat ∧
      ∀ i : Fin 12, i.val < t.tlen.toNat → t.txt[i] = t'.txt[i]

/-- R163: "LOCATE with `1 <= TLEN <= 12` has exactly the effect of B32D, then `MDEC 5*TLEN`, then
`NBITS <- 5*TLEN`, as one atomic command", on a valid text; on another length it raises
`InvalidBitCount`, on an invalid character `InvalidBase32`, and changes nothing else. -/
def Obligations.LocateIsB32dThenMdecThenNbits : Prop :=
  ∀ s : State,
    (1 ≤ s.textLength → s.textLength ≤ 12 → textValid s →
      ∃ t u, exec .b32d s = .next t ∧ exec (.mdec (5 * s.textLength)) t = .next u ∧
        exec .locate s = .next { u with nbits := BitVec.ofNat 16 (5 * s.textLength) } ∧
        succeeded s u) ∧
    (s.textLength < 1 ∨ 12 < s.textLength →
      ∃ t, exec .locate s = .next t ∧ t = { s with status := t.status } ∧ t.fc = 1#3) ∧
    (1 ≤ s.textLength → s.textLength ≤ 12 → ¬ textValid s →
      ∃ t, exec .locate s = .next t ∧ t = { s with status := t.status } ∧ t.fc = 2#3)

/-- R164: after `GEOHASH b` and LOCATE, `CODE` is the top `5 * floor(b/5)` bits of the Morton code,
right-aligned, its alignment is what TRUNC gives, `QLAT`, `QLON`, `LAT` and `LON` are those of the
truncated code, and `NBITS` is that count. The spec marks R164 as derived. -/
def Obligations.GeohashThenLocateTruncatesTheCode : Prop :=
  ∀ (b : Nat) (s : State), 5 ≤ b → b ≤ 60 →
    ∃ t u v, exec (.geohash b) s = .next t ∧ exec .locate t = .next u ∧
      exec (.trunc (5 * (b / 5))) t = .next v ∧
      v.code = t.code &&& tmask (5 * (b / 5)) ∧
      u.code = shr64 t.code (64 - 5 * (b / 5)) ∧
      lalign u.code (5 * (b / 5)) = t.code &&& tmask (5 * (b / 5)) ∧
      u.qlat = latOfCode (t.code &&& tmask (5 * (b / 5))) ∧
      u.qlon = lonOfCode (t.code &&& tmask (5 * (b / 5))) ∧
      u.lat = dequantLat (latOfCode (t.code &&& tmask (5 * (b / 5)))) ∧
      u.lon = dequantLon (lonOfCode (t.code &&& tmask (5 * (b / 5)))) ∧
      u.nbits.toNat = 5 * (b / 5)

/-- R166, the source's first testable property: for `b` in 5, 10, ..., 60 and every in-range point,
`GEOHASH b` then LOCATE ends with `NBITS = b` and a point within `Error(b)` of the input. In range is
what R83 says it is: less than one fixed-point step below the lower end, below the upper end, and not
the one pattern just below that. -/
def Obligations.GeohashLocateRoundTripIsWithinTheErrorBound : Prop :=
  ∀ (n : Nat) (s : State) (la lo : Int), 1 ≤ n → n ≤ 12 →
    realUnits? s.lat = some la → realUnits? s.lon = some lo →
    -180 * fpOne < (la + 90 * fpOne) * 2 ^ 32 → la < 90 * fpOne → s.lat ≠ 0x40567FFFFFFFFFFF#64 →
    -360 * fpOne < (lo + 180 * fpOne) * 2 ^ 32 → lo < 180 * fpOne →
    s.lon ≠ 0x40667FFFFFFFFFFF#64 →
    ∃ (t u e : State) (la' lo' ea eo : Int),
      exec (.geohash (5 * n)) s = .next t ∧ exec .locate t = .next u ∧
      exec (.err (5 * n)) u = .next e ∧ u.nbits.toNat = 5 * n ∧
      realUnits? u.lat = some la' ∧ realUnits? u.lon = some lo' ∧
      realUnits? e.elat = some ea ∧ realUnits? e.elon = some eo ∧
      |la - la'| ≤ ea ∧ |lo - lo'| ≤ eo

/-! ### Precision helpers -/

/-- R180 to R183: BITS writes `4 * (p + 6)`, PREC writes `floor(b / 4) - 6` in two's complement, for every
immediate, with nothing else changed. -/
def Obligations.BitsAndPrecWriteTheirFormulas : Prop :=
  ∀ (imm : Nat) (s : State), imm ≤ 127 →
    (∃ t, exec (.bits imm) s = .next t ∧ t = { s with nbits := t.nbits, status := t.status } ∧
      succeeded s t ∧ t.nbits.toInt = 4 * (imm + 6)) ∧
    (∃ t, exec (.prec imm) s = .next t ∧ t = { s with nbits := t.nbits, status := t.status } ∧
      succeeded s t ∧ t.nbits.toInt = (imm / 4 : Nat) - 6)

/-- R182: `prec_of(bits_of(p)) = p`, by the commands: PREC of what BITS wrote gives the level back,
for every level whose bit count an immediate can hold. -/
def Obligations.PrecInvertsBits : Prop :=
  ∀ (p : Nat) (s : State), p ≤ 25 → ∃ t u, exec (.bits p) s = .next t ∧
    t.nbits.toNat ≤ 127 ∧ exec (.prec t.nbits.toNat) t = .next u ∧ u.nbits.toNat = p

/-- R184, R185: ERR `b` for `1 <= b <= 60` writes `180 * 2^-floor(b/2)` and `360 * 2^-(b - floor(b/2))`
exactly, by the patterns R184 gives; outside it writes a NaN to both (which one is a free value, log
entry 5). No fault, nothing else changed. -/
def Obligations.ErrWritesTheBoundsOrNaN : Prop :=
  ∀ (b : Nat) (s : State), ∃ t, exec (.err b) s = .next t ∧
    t = { s with elat := t.elat, elon := t.elon, status := t.status } ∧ succeeded s t ∧
    (1 ≤ b → b ≤ 60 →
      (∃ ea, realUnits? t.elat = some ea ∧ ea * 2 ^ (b / 2) = 180 * fpOne) ∧
      (∃ eo, realUnits? t.elon = some eo ∧ eo * 2 ^ (b - b / 2) = 360 * fpOne) ∧
      t.elat.toNat = 0x4066800000000000 - (b / 2) * 2 ^ 52 ∧
      t.elon.toNat = 0x4076800000000000 - (b - b / 2) * 2 ^ 52) ∧
    (b = 0 ∨ 60 < b → isNaN t.elat = true ∧ isNaN t.elon = true)
end

