-- ==== Sys2Proof/Laws/Bits.lean ====
section
/-! SUPPORT. Words bit by bit: each function of the bit-spread unit said once by its bits. -/

namespace Sys2Proof.Machine

theorem getLsbD_wordOfBits (w : Nat) (f : Nat → Bool) (i : Nat) :
    (wordOfBits w f).getLsbD i = (decide (i < w) && f i) := by
  induction w with
  | zero => simp [wordOfBits]
  | succ w ih =>
    rw [wordOfBits, BitVec.getLsbD_cons, ih]
    by_cases h : i = w
    · simp [h]
    · have : (i < w + 1) ↔ (i < w) := by omega
      simp [h, this]

theorem getLsbD_spread (x : Fixed) (j : Nat) :
    (spread x).getLsbD j = (decide (j % 2 = 0) && x.getLsbD (j / 2)) := by
  rw [spread, getLsbD_wordOfBits]
  by_cases h : j < 64
  · simp [h, beq_eq_decide]
  · have : ¬ j / 2 < 32 := by omega
    simp [h, BitVec.getLsbD_of_ge x (j / 2) (by omega)]

theorem getLsbD_squash (y : Code) (i : Nat) :
    (squash y).getLsbD i = y.getLsbD (2 * i) := by
  rw [squash, getLsbD_wordOfBits]
  by_cases h : i < 32
  · simp [h]
  · simp [h, BitVec.getLsbD_of_ge y (2 * i) (by omega)]

theorem getLsbD_shl64 (v : Code) (n j : Nat) :
    (shl64 v n).getLsbD j = (decide (j < 64) && decide (n ≤ j) && v.getLsbD (j - n)) := by
  by_cases h : n ≤ j
  · simp [shl64, h, Nat.not_lt.2 h]
  · simp [shl64, h, Nat.not_le.1 h]

theorem getLsbD_shr64 (v : Code) (n j : Nat) : (shr64 v n).getLsbD j = v.getLsbD (n + j) := by
  simp [shr64]

theorem getLsbD_interleave (a b : Fixed) (j : Nat) :
    (interleave a b).getLsbD j = if j % 2 = 0 then a.getLsbD (j / 2) else b.getLsbD (j / 2) := by
  rw [interleave, BitVec.getLsbD_or, getLsbD_spread, getLsbD_shl64, getLsbD_spread]
  by_cases h : j % 2 = 0
  · have h1 : ¬ ((j - 1) % 2 = 0 ∧ 1 ≤ j) := by omega
    by_cases h2 : 1 ≤ j
    · have h3 : ¬ (j - 1) % 2 = 0 := by omega
      simp [h, h3]
    · simp [h, h2]
  · have h1 : 1 ≤ j := by omega
    have h2 : (j - 1) % 2 = 0 := by omega
    have h3 : (j - 1) / 2 = j / 2 := by omega
    by_cases h4 : j < 64
    · simp [h, h1, h2, h3, h4]
    · simp [h, h4, BitVec.getLsbD_of_ge b (j / 2) (by omega)]

theorem getLsbD_latOfCode (c : Code) (i : Nat) : (latOfCode c).getLsbD i = c.getLsbD (2 * i) :=
  getLsbD_squash c i

theorem getLsbD_lonOfCode (c : Code) (i : Nat) : (lonOfCode c).getLsbD i = c.getLsbD (2 * i + 1) := by
  rw [lonOfCode, getLsbD_squash, getLsbD_shr64, Nat.add_comm]

theorem getLsbD_lalign (c : Code) (b j : Nat) :
    (lalign c b).getLsbD j = (decide (j < 64) && decide (64 - b ≤ j) && c.getLsbD (j - (64 - b))) :=
  getLsbD_shl64 c (64 - b) j

theorem getLsbD_tmask (b j : Nat) :
    (tmask b).getLsbD j = (decide (j < 64) && decide (64 - b ≤ j)) := by
  rw [tmask, getLsbD_shl64, show (0xFFFFFFFFFFFFFFFF#64) = BitVec.allOnes 64 from rfl,
    BitVec.getLsbD_allOnes]
  by_cases h : j < 64
  · have : j - (64 - b) < 64 := by omega
    simp [h, this]
  · simp [h]

end Sys2Proof.Machine
end

