-- ==== Sys2Proof/Laws/Base32.lean ====
section
/-! SUPPORT. The base32 unit: the places of a written text, the digits of a read one, and the three
ways B32D and LOCATE end. -/

namespace Sys2Proof.Machine

theorem getElem_b32text (v : Code) (n : Nat) (i : Fin 12) :
    (b32text v n)[i] = if i.val < n then b32char v i.val else 0x00#8 := by
  simp [b32text]

@[simp] theorem b32digits?_nil : b32digits? [] = some [] := rfl

theorem b32digits?_cons_eq_some {b : Byte} {t : List Byte} {ds : List Digit} :
    b32digits? (b :: t) = some ds ↔
      ∃ d es, b32digit? b = some d ∧ b32digits? t = some es ∧ ds = d :: es := by
  rw [b32digits?]
  cases b32digit? b <;> cases b32digits? t <;> simp [eq_comm]

/-- A text decodes exactly when every character does, and then digit by digit. -/
theorem b32digits?_eq_some_iff {t : List Byte} {ds : List Digit} :
    b32digits? t = some ds ↔ t.map b32digit? = ds.map some := by
  induction t generalizing ds with
  | nil => cases ds <;> simp [b32digits?]
  | cons b t ih =>
    rw [b32digits?_cons_eq_some]
    cases ds with
    | nil => simp
    | cons d ds => simp [ih]

theorem b32digits?_eq_none_iff {t : List Byte} :
    b32digits? t = none ↔ ∃ b ∈ t, b32digit? b = none := by
  induction t with
  | nil => simp
  | cons b t ih =>
    rw [b32digits?]
    cases h : b32digit? b <;> cases h' : b32digits? t <;> simp_all

theorem length_text {s : State} (h : s.textLength ≤ 12) : s.text.length = s.textLength := by
  simp only [State.text, List.length_take, Vector.length_toList]
  exact Nat.min_eq_left h

/-- The three ways B32D ends (R145). -/
theorem execB32d_cases (s : State) :
    (12 < s.textLength ∧ execB32d s = .next (s.setFC .invalidBitCount)) ∨
    (s.textLength ≤ 12 ∧ b32digits? s.text = none ∧
      execB32d s = .next (s.setFC .invalidBase32)) ∨
    (∃ ds, s.textLength ≤ 12 ∧ b32digits? s.text = some ds ∧
      execB32d s = .next (({ s with code := b32accumulate ds } : State).setFC .ok)) := by
  unfold execB32d b32dec?
  by_cases h : s.textLength > Config.digits
  · rw [if_pos h]
    exact .inl ⟨h, rfl⟩
  · rw [if_neg h]
    cases hd : b32digits? s.text with
    | none => exact .inr (.inl ⟨Nat.le_of_not_lt h, rfl, rfl⟩)
    | some ds => exact .inr (.inr ⟨ds, Nat.le_of_not_lt h, rfl, rfl⟩)

/-- The three ways LOCATE ends (R163). -/
theorem execLocate_cases (s : State) :
    ((s.textLength < 1 ∨ 12 < s.textLength) ∧
      execLocate s = .next (s.setFC .invalidBitCount)) ∨
    (1 ≤ s.textLength ∧ s.textLength ≤ 12 ∧ b32digits? s.text = none ∧
      execLocate s = .next (s.setFC .invalidBase32)) ∨
    (∃ ds, 1 ≤ s.textLength ∧ s.textLength ≤ 12 ∧ b32digits? s.text = some ds ∧
      execLocate s = commit
        { s.withDecoded (lalign (b32accumulate ds) (bitsOfChars s.textLength)) with
          code := b32accumulate ds, nbits := BitVec.ofNat 16 (bitsOfChars s.textLength) }) := by
  unfold execLocate b32dec?
  by_cases h : s.textLength < 1 ∨ s.textLength > Config.digits
  · rw [if_pos h]
    exact .inl ⟨h, rfl⟩
  · rw [if_neg h]
    have h12 : ¬ s.textLength > 12 := fun hh => h (.inr hh)
    have h1 : ¬ s.textLength < 1 := fun hh => h (.inl hh)
    cases hd : b32digits? s.text with
    | none => exact .inr (.inl ⟨by omega, by omega, rfl, rfl⟩)
    | some ds => exact .inr (.inr ⟨ds, by omega, by omega, rfl, rfl⟩)

end Sys2Proof.Machine
end

