-- ==== Sys2Proof/Laws/Float.lean ====
section
/-! SUPPORT. Rounding and patterns: a rounded magnitude stays on its side of every representable
one, a representable one is its own rounding, and `f64` is exact. -/

namespace Sys2Proof.Machine

/-! ### The unit -/

theorem fpOne_eq : fpOne = 2 ^ 1074 := by unfold fpOne; rfl

theorem fpOverflow_eq : fpOverflow = 2 ^ 2098 := by unfold fpOverflow; rfl

theorem fpOne_pos : 0 < fpOne := lt_of_lt_of_eq (Nat.pow_pos (by decide)) fpOne_eq.symm

@[simp] theorem signedUnits_false (m : Nat) : signedUnits false m = m := rfl

@[simp] theorem signedUnits_true (m : Nat) : signedUnits true m = -(m : Int) := rfl

/-! ### Rounding a quotient to a whole number -/

theorem divNearestEven_ge_floor (num den : Nat) : num / den ≤ divNearestEven num den := by
  unfold divNearestEven
  simp only
  split <;> omega

theorem divNearestEven_le_of_le_mul {num den k : Nat} (hd : 0 < den) (h : num ≤ k * den) :
    divNearestEven num den ≤ k := by
  have hlt : num / den ≤ k := by
    rw [Nat.div_le_iff_le_mul_add_pred hd]
    calc num ≤ k * den := h
      _ ≤ den * k + (den - 1) := by rw [Nat.mul_comm]; omega
  rcases Nat.eq_or_lt_of_le hlt with he | hl
  · have hr : num % den = 0 := by
      have h1 := Nat.div_add_mod num den
      rw [he, Nat.mul_comm] at h1
      omega
    unfold divNearestEven
    simp only [hr]
    have : ¬ (den < 2 * 0 ∨ 2 * 0 = den ∧ num / den % 2 = 1) := by omega
    rw [if_neg this]
    exact he.le
  · unfold divNearestEven
    simp only
    split <;> omega

/-! ### Rounding to a binary64 magnitude -/

theorem fpSpacing_pos (m : Nat) : 0 < fpSpacing m := Nat.pow_pos (by decide)

/-- A representable magnitude that is no multiple of the spacing lies below the whole binade. -/
theorem representable_small_or_multiple {m q : Nat} (hm : fpRepresentable m) :
    fpSpacing q ∣ m ∨ m < 2 ^ q.log2 ∧ 52 ≤ q.log2 := by
  obtain ⟨c, e, hc, rfl⟩ := hm
  by_cases he : q.log2 - 52 ≤ e
  · exact .inl (Dvd.dvd.mul_left (pow_dvd_pow 2 he) c)
  · refine .inr ⟨?_, by omega⟩
    calc c * 2 ^ e < 2 ^ 53 * 2 ^ e := Nat.mul_lt_mul_of_pos_right hc (Nat.pow_pos (by decide))
      _ = 2 ^ (53 + e) := (pow_add 2 53 e).symm
      _ ≤ 2 ^ q.log2 := Nat.pow_le_pow_right (by decide) (by omega)

/-- A representable magnitude at or below the exact value is at or below its rounding. -/
theorem le_roundUnits {m num den : Nat} (hd : 0 < den) (hm : fpRepresentable m)
    (h : m * den ≤ num) : m ≤ roundUnits num den := by
  have hq : m ≤ num / den := (Nat.le_div_iff_mul_le hd).2 h
  have hg := fpSpacing_pos (num / den)
  have hfloor : num / den / fpSpacing (num / den) * fpSpacing (num / den) ≤ roundUnits num den := by
    have := divNearestEven_ge_floor num (den * fpSpacing (num / den))
    rw [← Nat.div_div_eq_div_mul] at this
    exact Nat.mul_le_mul_right _ this
  refine le_trans ?_ hfloor
  rcases representable_small_or_multiple (q := num / den) hm with ⟨k, rfl⟩ | ⟨hlt, hl⟩
  · rw [Nat.mul_comm]
    exact Nat.mul_le_mul_right _ ((Nat.le_div_iff_mul_le hg).2 (by rw [Nat.mul_comm]; exact hq))
  · have hne : num / den ≠ 0 := by intro h0; rw [h0] at hl; simp at hl
    have hpow : 2 ^ (num / den).log2 ≤ num / den := Nat.log2_self_le hne
    have hdvd : fpSpacing (num / den) ∣ 2 ^ (num / den).log2 :=
      pow_dvd_pow 2 (Nat.sub_le _ _)
    obtain ⟨k, hk⟩ := hdvd
    refine le_trans hlt.le ?_
    rw [hk, Nat.mul_comm]
    refine Nat.mul_le_mul_right _ ((Nat.le_div_iff_mul_le hg).2 ?_)
    rw [Nat.mul_comm, ← hk]
    exact hpow

/-- A representable magnitude at or above the exact value is at or above its rounding. -/
theorem roundUnits_le {m num den : Nat} (hd : 0 < den) (hm : fpRepresentable m)
    (h : num ≤ m * den) : roundUnits num den ≤ m := by
  have hg := fpSpacing_pos (num / den)
  rcases representable_small_or_multiple (q := num / den) hm with ⟨k, hk⟩ | ⟨hlt, hl⟩
  · unfold roundUnits
    simp only
    rw [hk, Nat.mul_comm (fpSpacing _) k]
    refine Nat.mul_le_mul_right _ (divNearestEven_le_of_le_mul (Nat.mul_pos hd hg) ?_)
    calc num ≤ m * den := h
      _ = k * (den * fpSpacing (num / den)) := by rw [hk]; ring_nf
  · exfalso
    have hne : num / den ≠ 0 := by intro h0; rw [h0] at hl; simp at hl
    have hpow : 2 ^ (num / den).log2 ≤ num / den := Nat.log2_self_le hne
    have h1 : m * den < num / den * den := Nat.mul_lt_mul_of_pos_right (lt_of_lt_of_le hlt hpow) hd
    have h2 := Nat.div_mul_le_self num den
    omega

/-- A representable value is its own rounding. -/
theorem roundUnits_exact {m den : Nat} (hd : 0 < den) (hm : fpRepresentable m) :
    roundUnits (m * den) den = m :=
  le_antisymm (roundUnits_le hd hm le_rfl) (le_roundUnits hd hm le_rfl)

/-! ### Representable magnitudes -/

theorem fpRepresentable_mul_pow {c : Nat} (e : Nat) (hc : c < 2 ^ 53) : fpRepresentable (c * 2 ^ e) :=
  ⟨c, e, hc, rfl⟩

theorem fpRepresentable_zero : fpRepresentable 0 := ⟨0, 0, by decide, by simp⟩

/-- Every finite pattern holds a representable magnitude. -/
theorem fpOfBits_representable {p : Code} {neg : Bool} {m : Nat} (h : fpOfBits p = .fin neg m) :
    fpRepresentable m := by
  have hf : (p.extractLsb' 0 52).toNat < 2 ^ 52 := (p.extractLsb' 0 52).isLt
  unfold fpOfBits at h
  simp only at h
  split at h
  · split at h <;> cases h
  · split at h
    · cases h
      exact ⟨(p.extractLsb' 0 52).toNat, 0, by omega, by rw [pow_zero, mul_one]⟩
    · cases h
      exact ⟨2 ^ 52 + (p.extractLsb' 0 52).toNat, _, by omega, rfl⟩

/-! ### Patterns -/

/-- The datum of a pattern written as sign, exponent and fraction. -/
theorem fpOfBits_append (s : Bool) (e : BitVec 11) (f : BitVec 52) :
    fpOfBits (BitVec.ofBool s ++ e ++ f) =
      if e.toNat = 2047 then (if f.toNat = 0 then .inf s else .nan)
      else if e.toNat = 0 then .fin s f.toNat
      else .fin s ((2 ^ 52 + f.toNat) * 2 ^ (e.toNat - 1)) := by
  have hs : (BitVec.ofBool s ++ e ++ f : BitVec 64).getLsbD 63 = s := by
    rw [BitVec.getLsbD_append, if_neg (by decide), BitVec.getLsbD_append, if_neg (by decide)]
    cases s <;> rfl
  have he : (BitVec.ofBool s ++ e ++ f : BitVec 64).extractLsb' 52 11 = e := by
    apply BitVec.eq_of_getLsbD_eq
    intro i hi
    simp only [BitVec.getLsbD_extractLsb', BitVec.getLsbD_append]
    rw [if_neg (by omega), if_pos (by omega)]
    simp [hi]
  have hf : (BitVec.ofBool s ++ e ++ f : BitVec 64).extractLsb' 0 52 = f := by
    apply BitVec.eq_of_getLsbD_eq
    intro i hi
    simp only [BitVec.getLsbD_extractLsb', BitVec.getLsbD_append]
    rw [if_pos (by omega)]
    simp [hi]
  unfold fpOfBits
  simp only
  rw [hs, he, hf]

/-- `f64` is exact for a nonzero number of at most 53 significant bits whose exponent is that of a
normal binary64 number. -/
theorem fpOfBits_f64 {k : Int} {e : Nat} (hk : k.natAbs < 2 ^ 53) (h0 : k ≠ 0) (he : e ≤ 1022) :
    fpOfBits (f64 k e) = .fin (decide (k < 0)) (k.natAbs * 2 ^ (1074 - e)) := by
  have hm : k.natAbs ≠ 0 := by omega
  have hl : k.natAbs.log2 ≤ 52 := by
    have := (Nat.log2_lt hm).2 hk
    omega
  have hle : 2 ^ k.natAbs.log2 ≤ k.natAbs := Nat.log2_self_le hm
  have hlt : k.natAbs < 2 ^ (k.natAbs.log2 + 1) := Nat.lt_log2_self
  unfold f64
  simp only [hm, if_false]
  rw [fpOfBits_append]
  have hE : (BitVec.ofNat 11 (k.natAbs.log2 + 1023 - e)).toNat = k.natAbs.log2 + 1023 - e := by
    rw [BitVec.toNat_ofNat, Nat.mod_eq_of_lt (by omega)]
  generalize hL : k.natAbs.log2 = l at *
  have hlo : 2 ^ 52 ≤ k.natAbs * 2 ^ (52 - l) := by
    calc 2 ^ 52 = 2 ^ l * 2 ^ (52 - l) := by rw [← pow_add]; congr 1; omega
      _ ≤ _ := Nat.mul_le_mul_right _ hle
  have hhi : k.natAbs * 2 ^ (52 - l) < 2 ^ 53 := by
    calc _ < 2 ^ (l + 1) * 2 ^ (52 - l) := Nat.mul_lt_mul_of_pos_right hlt (Nat.pow_pos (by decide))
      _ = 2 ^ 53 := by rw [← pow_add]; congr 1; omega
  have hF : (BitVec.ofNat 52 (k.natAbs * 2 ^ (52 - l))).toNat = k.natAbs * 2 ^ (52 - l) - 2 ^ 52 := by
    rw [BitVec.toNat_ofNat]
    omega
  rw [hE, hF, if_neg (by omega), if_neg (by omega)]
  have hexp : 52 - l + (l + 1023 - e - 1) = 1074 - e := by omega
  rw [Nat.add_sub_cancel' hlo, mul_assoc, ← pow_add, hexp]

theorem f64_zero (e : Nat) : f64 0 e = 0#64 := by simp [f64]

/-- The exact real of an `f64` pattern, in units of `2^-1074`. -/
theorem realUnits_f64 {k : Int} {e : Nat} (hk : k.natAbs < 2 ^ 53) (he : e ≤ 1022) :
    realUnits? (f64 k e) = some (k * 2 ^ (1074 - e)) := by
  by_cases h0 : k = 0
  · subst h0
    rw [f64_zero, Int.zero_mul]
    decide +kernel
  · unfold realUnits?
    rw [fpOfBits_f64 hk h0 he]
    simp only [signedUnits]
    congr 1
    by_cases hn : k < 0
    · have hab : (k.natAbs : Int) = -k := by omega
      simp only [hn, decide_true, if_true, Nat.cast_mul, Nat.cast_pow, Nat.cast_ofNat, hab]
      ring
    · have hab : (k.natAbs : Int) = k := by omega
      simp [hn, hab]

/-- The real of an `f64` pattern without naming the unit's power. -/
theorem realUnits_f64_scaled {k : Int} {e : Nat} (hk : k.natAbs < 2 ^ 53) (he : e ≤ 1022) :
    ∃ u, realUnits? (f64 k e) = some u ∧ u * 2 ^ e = k * fpOne := by
  refine ⟨_, realUnits_f64 hk he, ?_⟩
  have h : 1074 - e + e = 1074 := by omega
  rw [mul_assoc, ← pow_add, h, fpOne_eq, Nat.cast_pow, Nat.cast_ofNat]

/-- `NAN_PATTERN` is a NaN whatever its free fields are (R185). -/
theorem isNaN_nanOf (s : Bool) (f : BitVec 52) : isNaN (nanOf s f) = true := by
  have key : ∀ g : BitVec 52, g ≠ 0#52 → isNaN (BitVec.ofBool s ++ 0x7FF#11 ++ g) = true := by
    intro g hg
    have he : (BitVec.ofBool s ++ 0x7FF#11 ++ g : BitVec 64).extractLsb' 52 11 = 0x7FF#11 := by
      apply BitVec.eq_of_getLsbD_eq
      intro i hi
      simp only [BitVec.getLsbD_extractLsb', BitVec.getLsbD_append]
      rw [if_neg (by omega), if_pos (by omega)]
      simp [hi]
    have hf : (BitVec.ofBool s ++ 0x7FF#11 ++ g : BitVec 64).extractLsb' 0 52 = g := by
      apply BitVec.eq_of_getLsbD_eq
      intro i hi
      simp only [BitVec.getLsbD_extractLsb', BitVec.getLsbD_append]
      rw [if_pos (by omega)]
      simp [hi]
    unfold isNaN
    rw [he, hf]
    simpa using hg
  unfold nanOf
  by_cases h : f = 0#52
  · rw [if_pos h]; exact key _ (by decide)
  · rw [if_neg h]; exact key _ h

end Sys2Proof.Machine
end

