-- ==== Sys2Proof/Laws/State.lean ====
section
/-! SUPPORT. One lemma per field per named update of State, each true by unfolding the update. -/

namespace Sys2Proof.Machine

@[simp] theorem State.setFC_lat (c : FaultCode) (s : State) : (s.setFC c).lat = s.lat := rfl
@[simp] theorem State.setFC_lon (c : FaultCode) (s : State) : (s.setFC c).lon = s.lon := rfl
@[simp] theorem State.setFC_qlat (c : FaultCode) (s : State) : (s.setFC c).qlat = s.qlat := rfl
@[simp] theorem State.setFC_qlon (c : FaultCode) (s : State) : (s.setFC c).qlon = s.qlon := rfl
@[simp] theorem State.setFC_code (c : FaultCode) (s : State) : (s.setFC c).code = s.code := rfl
@[simp] theorem State.setFC_nbits (c : FaultCode) (s : State) : (s.setFC c).nbits = s.nbits := rfl
@[simp] theorem State.setFC_elat (c : FaultCode) (s : State) : (s.setFC c).elat = s.elat := rfl
@[simp] theorem State.setFC_elon (c : FaultCode) (s : State) : (s.setFC c).elon = s.elon := rfl
@[simp] theorem State.setFC_txt (c : FaultCode) (s : State) : (s.setFC c).txt = s.txt := rfl
@[simp] theorem State.setFC_tlen (c : FaultCode) (s : State) : (s.setFC c).tlen = s.tlen := rfl
@[simp] theorem State.setFC_status (c : FaultCode) (s : State) : (s.setFC c).status = s.statusReserved ++ c.toBits := rfl
@[simp] theorem State.setFC_pending (c : FaultCode) (s : State) : (s.setFC c).pending = s.pending := rfl
@[simp] theorem State.setFC_answer (c : FaultCode) (s : State) : (s.setFC c).answer = s.answer := rfl
@[simp] theorem State.setFC_draws (c : FaultCode) (s : State) : (s.setFC c).draws = s.draws := rfl

@[simp] theorem State.withQuantised_lat (s : State) : s.withQuantised.lat = s.lat := rfl
@[simp] theorem State.withQuantised_lon (s : State) : s.withQuantised.lon = s.lon := rfl
@[simp] theorem State.withQuantised_qlat (s : State) : s.withQuantised.qlat = s.quantLat := rfl
@[simp] theorem State.withQuantised_qlon (s : State) : s.withQuantised.qlon = s.quantLon := rfl
@[simp] theorem State.withQuantised_code (s : State) : s.withQuantised.code = s.code := rfl
@[simp] theorem State.withQuantised_nbits (s : State) : s.withQuantised.nbits = s.nbits := rfl
@[simp] theorem State.withQuantised_elat (s : State) : s.withQuantised.elat = s.elat := rfl
@[simp] theorem State.withQuantised_elon (s : State) : s.withQuantised.elon = s.elon := rfl
@[simp] theorem State.withQuantised_txt (s : State) : s.withQuantised.txt = s.txt := rfl
@[simp] theorem State.withQuantised_tlen (s : State) : s.withQuantised.tlen = s.tlen := rfl
@[simp] theorem State.withQuantised_status (s : State) : s.withQuantised.status = s.status := rfl
@[simp] theorem State.withQuantised_pending (s : State) : s.withQuantised.pending = s.pending := rfl
@[simp] theorem State.withQuantised_answer (s : State) : s.withQuantised.answer = s.answer := rfl
@[simp] theorem State.withQuantised_draws (s : State) : s.withQuantised.draws = s.draws + 2 := rfl

@[simp] theorem State.withEncoded_lat (s : State) : s.withEncoded.lat = s.lat := rfl
@[simp] theorem State.withEncoded_lon (s : State) : s.withEncoded.lon = s.lon := rfl
@[simp] theorem State.withEncoded_qlat (s : State) : s.withEncoded.qlat = s.quantLat := rfl
@[simp] theorem State.withEncoded_qlon (s : State) : s.withEncoded.qlon = s.quantLon := rfl
@[simp] theorem State.withEncoded_code (s : State) : s.withEncoded.code = interleave s.quantLat s.quantLon := rfl
@[simp] theorem State.withEncoded_nbits (s : State) : s.withEncoded.nbits = s.nbits := rfl
@[simp] theorem State.withEncoded_elat (s : State) : s.withEncoded.elat = s.elat := rfl
@[simp] theorem State.withEncoded_elon (s : State) : s.withEncoded.elon = s.elon := rfl
@[simp] theorem State.withEncoded_txt (s : State) : s.withEncoded.txt = s.txt := rfl
@[simp] theorem State.withEncoded_tlen (s : State) : s.withEncoded.tlen = s.tlen := rfl
@[simp] theorem State.withEncoded_status (s : State) : s.withEncoded.status = s.status := rfl
@[simp] theorem State.withEncoded_pending (s : State) : s.withEncoded.pending = s.pending := rfl
@[simp] theorem State.withEncoded_answer (s : State) : s.withEncoded.answer = s.answer := rfl
@[simp] theorem State.withEncoded_draws (s : State) : s.withEncoded.draws = s.draws + 2 := rfl

@[simp] theorem State.withDecoded_lat (c : Code) (s : State) : (s.withDecoded c).lat = dequantLat (latOfCode c) := rfl
@[simp] theorem State.withDecoded_lon (c : Code) (s : State) : (s.withDecoded c).lon = dequantLon (lonOfCode c) := rfl
@[simp] theorem State.withDecoded_qlat (c : Code) (s : State) : (s.withDecoded c).qlat = latOfCode c := rfl
@[simp] theorem State.withDecoded_qlon (c : Code) (s : State) : (s.withDecoded c).qlon = lonOfCode c := rfl
@[simp] theorem State.withDecoded_code (c : Code) (s : State) : (s.withDecoded c).code = s.code := rfl
@[simp] theorem State.withDecoded_nbits (c : Code) (s : State) : (s.withDecoded c).nbits = s.nbits := rfl
@[simp] theorem State.withDecoded_elat (c : Code) (s : State) : (s.withDecoded c).elat = s.elat := rfl
@[simp] theorem State.withDecoded_elon (c : Code) (s : State) : (s.withDecoded c).elon = s.elon := rfl
@[simp] theorem State.withDecoded_txt (c : Code) (s : State) : (s.withDecoded c).txt = s.txt := rfl
@[simp] theorem State.withDecoded_tlen (c : Code) (s : State) : (s.withDecoded c).tlen = s.tlen := rfl
@[simp] theorem State.withDecoded_status (c : Code) (s : State) : (s.withDecoded c).status = s.status := rfl
@[simp] theorem State.withDecoded_pending (c : Code) (s : State) : (s.withDecoded c).pending = s.pending := rfl
@[simp] theorem State.withDecoded_answer (c : Code) (s : State) : (s.withDecoded c).answer = s.answer := rfl
@[simp] theorem State.withDecoded_draws (c : Code) (s : State) : (s.withDecoded c).draws = s.draws := rfl

@[simp] theorem State.resetRegisters_lat (s : State) : s.resetRegisters.lat = State.reset.lat := rfl
@[simp] theorem State.resetRegisters_lon (s : State) : s.resetRegisters.lon = State.reset.lon := rfl
@[simp] theorem State.resetRegisters_qlat (s : State) : s.resetRegisters.qlat = State.reset.qlat := rfl
@[simp] theorem State.resetRegisters_qlon (s : State) : s.resetRegisters.qlon = State.reset.qlon := rfl
@[simp] theorem State.resetRegisters_code (s : State) : s.resetRegisters.code = State.reset.code := rfl
@[simp] theorem State.resetRegisters_nbits (s : State) : s.resetRegisters.nbits = State.reset.nbits := rfl
@[simp] theorem State.resetRegisters_elat (s : State) : s.resetRegisters.elat = State.reset.elat := rfl
@[simp] theorem State.resetRegisters_elon (s : State) : s.resetRegisters.elon = State.reset.elon := rfl
@[simp] theorem State.resetRegisters_txt (s : State) : s.resetRegisters.txt = State.reset.txt := rfl
@[simp] theorem State.resetRegisters_tlen (s : State) : s.resetRegisters.tlen = State.reset.tlen := rfl
@[simp] theorem State.resetRegisters_status (s : State) : s.resetRegisters.status = State.reset.status := rfl
@[simp] theorem State.resetRegisters_pending (s : State) : s.resetRegisters.pending = s.pending := rfl
@[simp] theorem State.resetRegisters_answer (s : State) : s.resetRegisters.answer = s.answer := rfl
@[simp] theorem State.resetRegisters_draws (s : State) : s.resetRegisters.draws = s.draws := rfl

@[simp] theorem State.issueNext_lat (w : CommandWord) (s : State) : (s.issueNext w).lat = s.lat := rfl
@[simp] theorem State.issueNext_lon (w : CommandWord) (s : State) : (s.issueNext w).lon = s.lon := rfl
@[simp] theorem State.issueNext_qlat (w : CommandWord) (s : State) : (s.issueNext w).qlat = s.qlat := rfl
@[simp] theorem State.issueNext_qlon (w : CommandWord) (s : State) : (s.issueNext w).qlon = s.qlon := rfl
@[simp] theorem State.issueNext_code (w : CommandWord) (s : State) : (s.issueNext w).code = s.code := rfl
@[simp] theorem State.issueNext_nbits (w : CommandWord) (s : State) : (s.issueNext w).nbits = s.nbits := rfl
@[simp] theorem State.issueNext_elat (w : CommandWord) (s : State) : (s.issueNext w).elat = s.elat := rfl
@[simp] theorem State.issueNext_elon (w : CommandWord) (s : State) : (s.issueNext w).elon = s.elon := rfl
@[simp] theorem State.issueNext_txt (w : CommandWord) (s : State) : (s.issueNext w).txt = s.txt := rfl
@[simp] theorem State.issueNext_tlen (w : CommandWord) (s : State) : (s.issueNext w).tlen = s.tlen := rfl
@[simp] theorem State.issueNext_status (w : CommandWord) (s : State) : (s.issueNext w).status = s.status := rfl
@[simp] theorem State.issueNext_pending (w : CommandWord) (s : State) : (s.issueNext w).pending = .issue w :: s.pending := rfl
@[simp] theorem State.issueNext_answer (w : CommandWord) (s : State) : (s.issueNext w).answer = s.answer := rfl
@[simp] theorem State.issueNext_draws (w : CommandWord) (s : State) : (s.issueNext w).draws = s.draws := rfl

end Sys2Proof.Machine
end

