-- ==== Sys2Proof/Laws/Ops.lean ====
section
/-! SUPPORT. What each shared operation can do, said once: the status code, the two ends of a
command, host access, and the issue of a word. -/

namespace Sys2Proof.Machine

/-! ### The status code -/

@[simp] theorem State.fc_setFC (c : FaultCode) (s : State) : (s.setFC c).fc = c.toBits := by
  apply BitVec.eq_of_getLsbD_eq
  intro i hi
  simp only [State.fc, State.setFC, BitVec.getLsbD_extractLsb', BitVec.getLsbD_append]
  simp [hi]

@[simp] theorem State.statusReserved_setFC (c : FaultCode) (s : State) :
    (s.setFC c).statusReserved = s.statusReserved := by
  apply BitVec.eq_of_getLsbD_eq
  intro i hi
  simp only [State.statusReserved, State.setFC, BitVec.getLsbD_extractLsb', BitVec.getLsbD_append]
  simp [hi]

@[simp] theorem State.setFC_setFC (c d : FaultCode) (s : State) :
    (s.setFC c).setFC d = s.setFC d := by
  have h := State.statusReserved_setFC c s
  simp only [State.setFC] at h ⊢
  rw [h]

/-- No code is above 3. -/
theorem FaultCode.toBits_le (c : FaultCode) : c.toBits.toNat ≤ 3 := by cases c <;> decide

theorem FaultCode.toBits_injective {c d : FaultCode} (h : c.toBits = d.toBits) : c = d := by
  cases c <;> cases d <;> first | rfl | exact absurd h (by decide)

/-- Writing a code keeps `STATUS` legal. -/
theorem State.statusLegal_setFC (c : FaultCode) (s : State) (h : s.statusReserved = 0#5) :
    (s.setFC c).statusLegal := by
  refine ⟨by simpa using h, ?_⟩
  simpa using c.toBits_le

/-! ### The two ends of a command -/

theorem commit_eq_next_iff {s t : State} : commit s = .next t ↔ t = s.setFC .ok := by
  simp [commit, eq_comm]

theorem raiseFault_eq_next_iff {c : FaultCode} {s t : State} :
    raiseFault c s = .next t ↔ t = s.setFC c := by
  simp [raiseFault, eq_comm]

/-! ### Host access -/

/-- The register a value belongs to. -/
def RegValue.reg : RegValue → Reg
  | .lat _ => .lat
  | .lon _ => .lon
  | .qlat _ => .qlat
  | .qlon _ => .qlon
  | .code _ => .code
  | .nbits _ => .nbits
  | .elat _ => .elat
  | .elon _ => .elon
  | .txt i _ => .txt i
  | .tlen _ => .tlen
  | .status _ => .status

/-- What a host write can do: its three kinds of effect on the fields. -/
theorem State.hostWrite_status (v : RegValue) (s : State) : (s.hostWrite v).status = s.status := by
  cases v <;> rfl

theorem State.hostWrite_pending (v : RegValue) (s : State) :
    (s.hostWrite v).pending = s.pending := by
  cases v <;> rfl

theorem State.hostWrite_draws (v : RegValue) (s : State) : (s.hostWrite v).draws = s.draws := by
  cases v <;> rfl

theorem State.hostWrite_answer (v : RegValue) (s : State) : (s.hostWrite v).answer = s.answer := by
  cases v <;> rfl

/-- A read depends on the registers alone. -/
theorem State.hostRead_status_eq {s t : State} (h : s.fc = t.fc) :
    s.hostRead .status = t.hostRead .status := by
  simp [State.hostRead, h]

/-! ### Issue -/

/-- What the issue of a word can do. -/
theorem issue_cases (w : CommandWord) (s : State) :
    (∃ i, decode w = .command i ∧ issue w s = exec i s) ∨
    (∃ why, decode w = .reserved why ∧ issue w s = .next (s.setFC .illegalCommand)) := by
  unfold issue
  cases decode w with
  | command i => exact .inl ⟨i, rfl, rfl⟩
  | reserved why => exact .inr ⟨why, rfl, rfl⟩

/-- What a step can do: nothing, when the host asks nothing; otherwise the next action. -/
theorem step_cases (s : State) :
    (s.pending = [] ∧ step s = .next s) ∨
    (∃ a rest, s.pending = a :: rest ∧ step s = perform a { s with pending := rest }) := by
  unfold step stepOnce State.nextAction
  cases h : s.pending with
  | nil => exact .inl ⟨rfl, rfl⟩
  | cons a rest => exact .inr ⟨a, rest, rfl, rfl⟩

/-! ### What a command can do -/

/-- Every command ends in one of two ways: it commits a state that differs from `s` in no host-side
field but the draw count and has the old `STATUS`, or it writes a fault code and nothing else. -/
theorem exec_cases (i : Instr) (s : State) :
    (∃ t : State, exec i s = .next (t.setFC .ok) ∧ t.status = s.status ∧ t.pending = s.pending ∧
      t.answer = s.answer) ∨
    (∃ c, (c = .invalidBitCount ∨ c = .invalidBase32) ∧ exec i s = .next (s.setFC c)) := by
  cases i with
  | nop => exact .inl ⟨s, rfl, rfl, rfl, rfl⟩
  | qnt => exact .inl ⟨s.withQuantised, rfl, rfl, rfl, rfl⟩
  | dqnt => exact .inl ⟨_, rfl, rfl, rfl, rfl⟩
  | spread => exact .inl ⟨_, rfl, rfl, rfl, rfl⟩
  | squash => exact .inl ⟨_, rfl, rfl, rfl, rfl⟩
  | ilv => exact .inl ⟨_, rfl, rfl, rfl, rfl⟩
  | dilv => exact .inl ⟨_, rfl, rfl, rfl, rfl⟩
  | menc => exact .inl ⟨s.withEncoded, rfl, rfl, rfl, rfl⟩
  | mdec imm =>
    simp only [exec, execMdec]
    split
    · exact .inr ⟨_, .inl rfl, rfl⟩
    · exact .inl ⟨_, rfl, rfl, rfl, rfl⟩
  | trunc imm =>
    simp only [exec, execTrunc]
    split
    · exact .inr ⟨_, .inl rfl, rfl⟩
    · exact .inl ⟨_, rfl, rfl, rfl, rfl⟩
  | b32e => exact .inl ⟨_, rfl, rfl, rfl, rfl⟩
  | b32d =>
    simp only [exec, execB32d]
    split
    · exact .inr ⟨_, .inl rfl, rfl⟩
    · split
      · exact .inr ⟨_, .inr rfl, rfl⟩
      · exact .inl ⟨_, rfl, rfl, rfl, rfl⟩
  | geohash imm =>
    simp only [exec, execGeohash]
    split
    · exact .inr ⟨_, .inl rfl, rfl⟩
    · exact .inl ⟨_, rfl, rfl, rfl, rfl⟩
  | locate =>
    simp only [exec, execLocate]
    split
    · exact .inr ⟨_, .inl rfl, rfl⟩
    · split
      · exact .inr ⟨_, .inr rfl, rfl⟩
      · exact .inl ⟨_, rfl, rfl, rfl, rfl⟩
  | bits imm => exact .inl ⟨_, rfl, rfl, rfl, rfl⟩
  | prec imm => exact .inl ⟨_, rfl, rfl, rfl, rfl⟩
  | err imm => exact .inl ⟨_, rfl, rfl, rfl, rfl⟩

end Sys2Proof.Machine
end

