-- ==== Sys2Proof/Laws/PerInstr.lean ====
section
/-! SUPPORT. Per command: the fields of its word. -/

namespace Sys2Proof.Laws.WordFields

/-- The word of a well-formed command holds its opcode in bits 15:8, zero in bit 7 and its immediate,
or zero, in bits 6:0 (spec/30_encoding.md R60 to R62). -/
def Statement (i : Instr) : Prop :=
  i.wellFormed = true →
    opField (encode i) = i.opcode ∧ zField (encode i) = 0#1 ∧
      (immField (encode i)).toNat = i.immediate?.getD 0

/-- The fields of any word put together from an opcode, a zero bit and seven bits. -/
theorem fields_append (op : BitVec 8) (imm : BitVec 7) :
    opField (op ++ 0#1 ++ imm) = op ∧ zField (op ++ 0#1 ++ imm) = 0#1 ∧
      immField (op ++ 0#1 ++ imm) = imm := by
  refine ⟨?_, ?_, ?_⟩ <;> apply BitVec.eq_of_getLsbD_eq <;> intro j hj <;>
    simp only [opField, zField, immField, BitVec.getLsbD_extractLsb', BitVec.getLsbD_append]
  · rw [if_neg (by omega), if_neg (by omega)]
    simp [hj, show 8 + j - 7 - 1 = j by omega]
  · rw [if_neg (by omega)]
    simp [show j = 0 by omega]
  · rw [if_pos (by omega)]
    simp [hj]

theorem of_immediate {i : Instr} : Statement i := by
  intro h
  obtain ⟨h1, h2, h3⟩ := fields_append i.opcode (BitVec.ofNat 7 (i.immediate?.getD 0))
  refine ⟨h1, h2, ?_⟩
  have hlt : i.immediate?.getD 0 < 2 ^ 7 := by
    unfold Instr.wellFormed at h
    cases hi : i.immediate? with
    | none => simp
    | some imm =>
      rw [hi] at h
      have : imm ≤ 127 := by simpa using h
      simp
      omega
  unfold encode
  rw [h3, BitVec.toNat_ofNat, Nat.mod_eq_of_lt hlt]

theorem nop : Statement .nop := of_immediate
theorem qnt : Statement .qnt := of_immediate
theorem dqnt : Statement .dqnt := of_immediate
theorem spread : Statement .spread := of_immediate
theorem squash : Statement .squash := of_immediate
theorem ilv : Statement .ilv := of_immediate
theorem dilv : Statement .dilv := of_immediate
theorem menc : Statement .menc := of_immediate
theorem mdec (imm : Nat) : Statement (.mdec imm) := of_immediate
theorem trunc (imm : Nat) : Statement (.trunc imm) := of_immediate
theorem b32e : Statement .b32e := of_immediate
theorem b32d : Statement .b32d := of_immediate
theorem geohash (imm : Nat) : Statement (.geohash imm) := of_immediate
theorem locate : Statement .locate := of_immediate
theorem bits (imm : Nat) : Statement (.bits imm) := of_immediate
theorem prec (imm : Nat) : Statement (.prec imm) := of_immediate
theorem err (imm : Nat) : Statement (.err imm) := of_immediate

end Sys2Proof.Laws.WordFields
end

