-- ==== Sys2Proof/Laws/Quantiser.lean ====
section
/-! SUPPORT. The quantiser and the dequantiser, each said once: the constants, what the three
operations compute inside the domain and below its lower end, on which side of a whole step the
result lies, and the exact real a dequantised pattern holds. -/

namespace Sys2Proof.Machine

/-! ### The constants of R80 -/

theorem fpOfBits_pattern90 : fpOfBits pattern90 = .fin false (90 * fpOne) := by decide +kernel

theorem fpOfBits_pattern180 : fpOfBits pattern180 = .fin false (180 * fpOne) := by decide +kernel

theorem fpOfBits_pattern360 : fpOfBits pattern360 = .fin false (360 * fpOne) := by decide +kernel

theorem fpOfBits_patternTwo32 : fpOfBits patternTwo32 = .fin false (2 ^ 32 * fpOne) := by
  decide +kernel

/-! ### Narrowing -/

theorem narrowInteger?_natCast (t : Nat) :
    narrowInteger? t = if t < 2 ^ 32 then some (BitVec.ofNat 32 t) else none := by
  unfold narrowInteger?
  by_cases h : t < 2 ^ 32
  · have : (0 : Int) ≤ t ∧ (t : Int) ≤ 2 ^ 32 - 1 := by omega
    rw [if_pos h, if_pos this]
    simp
  · have : ¬ ((0 : Int) ≤ t ∧ (t : Int) ≤ 2 ^ 32 - 1) := by omega
    rw [if_neg h, if_neg this]

theorem narrow32?_fin_false (m : Nat) :
    narrow32? (.fin false m) =
      if m / fpOne < 2 ^ 32 then some (BitVec.ofNat 32 (m / fpOne)) else none :=
  narrowInteger?_natCast _

/-! ### The three operations inside the domain -/

/-- A rounding that stays at or below a whole number of fewer than 54 bits is finite. -/
theorem fpRound_eq_fin {neg : Bool} {num den : Nat} (c : Nat) (hd : 0 < den) (hc : c < 2 ^ 53)
    (h : num ≤ c * fpOne * den) : fpRound neg num den = .fin neg (roundUnits num den) := by
  have hle : roundUnits num den ≤ c * fpOne :=
    roundUnits_le hd ⟨c, 1074, hc, by rw [fpOne_eq]⟩ h
  have hlt : 2 ^ 53 * fpOne < fpOverflow := by decide +kernel
  have := Nat.mul_le_mul_right fpOne hc.le
  unfold fpRound
  simp only
  rw [if_neg (by omega)]

/-- The exact sum of a finite pattern and an offset, rounded. -/
def sumUnits (k : Int) (off : Nat) : Nat := roundUnits (k + off * fpOne).toNat 1

/-- That sum divided by the span, rounded. -/
def quotientUnits (k : Int) (off span : Nat) : Nat :=
  roundUnits (sumUnits k off * fpOne) (span * fpOne)

/-- That quotient times `2^32`, rounded. -/
def scaledUnits (k : Int) (off span : Nat) : Nat :=
  roundUnits (quotientUnits k off span * (2 ^ 32 * fpOne)) fpOne

/-- Inside the domain, ends included, the scaled value is finite and not negative, and the two
intermediates are at most the span and 1. -/
theorem quantScaled_in_domain {v off span : Code} {o s : Nat} {k : Int}
    (hoff : fpOfBits off = .fin false (o * fpOne)) (hspan : fpOfBits span = .fin false (s * fpOne))
    (ho : s = 2 * o) (hs0 : 0 < s) (hs : s < 2 ^ 50) (hk : realUnits? v = some k)
    (hlo : -o * (fpOne : Int) ≤ k) (hhi : k ≤ o * fpOne) :
    quantScaled v off span = .fin false (scaledUnits k o s) ∧
      sumUnits k o ≤ s * fpOne ∧ quotientUnits k o s ≤ fpOne := by
  have hf := fpOne_pos
  have hsf : 0 < s * fpOne := Nat.mul_pos hs0 hf
  obtain ⟨neg, m, hv, hkm⟩ : ∃ neg m, fpOfBits v = .fin neg m ∧ signedUnits neg m = k := by
    unfold realUnits? at hk
    split at hk <;> simp_all
  have hsum : (k + o * fpOne).toNat ≤ s * fpOne * 1 := by
    rw [ho]
    have : k + o * fpOne ≤ 2 * (o * fpOne : Int) := by linarith
    zify
    rw [Int.toNat_of_nonneg (by linarith)]
    linarith
  have h1 : sumUnits k o ≤ s * fpOne :=
    roundUnits_le (by decide) ⟨s, 1074, by omega, by rw [fpOne_eq]⟩ hsum
  have hquot : sumUnits k o * fpOne ≤ 1 * fpOne * (s * fpOne) := by
    calc _ ≤ s * fpOne * fpOne := Nat.mul_le_mul_right _ h1
      _ = _ := by ring
  have h2 : quotientUnits k o s ≤ fpOne := by
    rw [← one_mul fpOne]
    exact roundUnits_le hsf ⟨1, 1074, by decide, by rw [fpOne_eq]⟩ hquot
  have hadd : fadd (fpOfBits v) (fpOfBits off) = .fin false (sumUnits k o) := by
    rw [hv, hoff]
    unfold fadd
    simp only
    rw [hkm, signedUnits_false, Nat.cast_mul]
    by_cases h0 : k + o * fpOne = 0
    · have hz : sumUnits k o = 0 := by rw [sumUnits, h0]; decide +kernel
      rw [if_pos h0, hz, Bool.and_false]
    · have hpos : ¬ k + o * fpOne < 0 := by
        have : 0 ≤ k + o * fpOne := by linarith
        omega
      have habs : (k + (o : Int) * fpOne).natAbs = (k + o * fpOne).toNat := by omega
      rw [if_neg h0, habs, fpRound_eq_fin s (by decide) (by omega) hsum]
      simp [hpos, sumUnits]
  refine ⟨?_, h1, h2⟩
  unfold quantScaled
  simp only
  rw [hadd, hspan, fpOfBits_patternTwo32]
  unfold fdiv
  simp only
  rw [if_neg (by omega), fpRound_eq_fin 1 hsf (by decide) hquot]
  unfold fmul
  simp only
  rw [fpRound_eq_fin (2 ^ 32) hf (by decide) (by
    calc _ ≤ fpOne * (2 ^ 32 * fpOne) := Nat.mul_le_mul_right _ h2
      _ = _ := by ring)]
  rfl

/-- The scaled value keeps its side of every whole step: the steps are representable at all three
stages. -/
theorem scaledUnits_sides {k : Int} {o s n : Nat} (hs0 : 0 < s) (hs : s < 2 ^ 20)
    (hn : n ≤ 2 ^ 32) :
    (n * s * fpOne ≤ (k + o * fpOne).toNat * 2 ^ 32 → n * fpOne ≤ scaledUnits k o s) ∧
    ((k + o * fpOne).toNat * 2 ^ 32 ≤ n * s * fpOne → scaledUnits k o s ≤ n * fpOne) := by
  have hf := fpOne_pos
  have hsf : 0 < s * fpOne := Nat.mul_pos hs0 hf
  obtain ⟨u, hu, hone⟩ : ∃ u, u = 2 ^ 1042 ∧ fpOne = u * 2 ^ 32 :=
    ⟨_, rfl, by rw [fpOne_eq, ← pow_add]⟩
  have hsum : sumUnits k o = roundUnits (k + o * fpOne).toNat 1 := rfl
  generalize (k + o * fpOne).toNat = x at hsum ⊢
  have hcancel : n * s * fpOne = n * s * u * 2 ^ 32 := by rw [hone]; ring
  rw [hcancel]
  have r1 : fpRepresentable (n * s * u) := ⟨n * s, 1042, by
    clear hu hone hcancel
    calc n * s ≤ 2 ^ 32 * s := Nat.mul_le_mul_right _ hn
      _ < 2 ^ 32 * 2 ^ 20 := by omega
      _ < 2 ^ 53 := by decide, by rw [hu]⟩
  have r2 : fpRepresentable (n * u) := ⟨n, 1042, by omega, by rw [hu]⟩
  have r3 : fpRepresentable (n * fpOne) := ⟨n, 1074, by omega, by rw [fpOne_eq]⟩
  constructor
  · intro h
    have a1 : n * s * u ≤ sumUnits k o := by
      rw [hsum]
      refine le_roundUnits (by decide) r1 ?_
      rw [mul_one]
      exact Nat.le_of_mul_le_mul_right h (by decide)
    have a2 : n * u ≤ quotientUnits k o s := by
      refine le_roundUnits hsf r2 ?_
      calc n * u * (s * fpOne) = n * s * u * fpOne := by ring
        _ ≤ _ := Nat.mul_le_mul_right _ a1
    refine le_roundUnits hf r3 ?_
    calc n * fpOne * fpOne = n * u * (2 ^ 32 * fpOne) := by nth_rewrite 1 [hone]; ring
      _ ≤ _ := Nat.mul_le_mul_right _ a2
  · intro h
    have a1 : sumUnits k o ≤ n * s * u := by
      rw [hsum]
      refine roundUnits_le (by decide) r1 ?_
      rw [mul_one]
      exact Nat.le_of_mul_le_mul_right h (by decide)
    have a2 : quotientUnits k o s ≤ n * u := by
      refine roundUnits_le hsf r2 ?_
      calc _ ≤ n * s * u * fpOne := Nat.mul_le_mul_right _ a1
        _ = _ := by ring
    refine roundUnits_le hf r3 ?_
    calc _ ≤ n * u * (2 ^ 32 * fpOne) := Nat.mul_le_mul_right _ a2
      _ = n * fpOne * fpOne := by nth_rewrite 2 [hone]; ring

/-! ### The three operations below the lower end -/

/-- A rounding of at least a representable magnitude is at least that, or infinite. -/
theorem fpRound_ge {neg : Bool} {b num den : Nat} (hd : 0 < den) (hb : fpRepresentable b)
    (h : b * den ≤ num) :
    fpRound neg num den = .inf neg ∨ ∃ m, fpRound neg num den = .fin neg m ∧ b ≤ m := by
  unfold fpRound
  simp only
  split
  · exact .inl rfl
  · exact .inr ⟨_, rfl, le_roundUnits hd hb h⟩

/-- A pattern of magnitude at least `2^6` degrees is a whole multiple of `2^1028` units. -/
theorem spacing_dvd_of_le {m : Nat} (hm : fpRepresentable m) (h : 2 ^ 1080 ≤ m) : 2 ^ 1028 ∣ m := by
  obtain ⟨c, e, hc, rfl⟩ := hm
  have : 1028 ≤ e := by
    by_contra hlt
    have h1 : c * 2 ^ e < 2 ^ 53 * 2 ^ e := Nat.mul_lt_mul_of_pos_right hc (Nat.pow_pos (by decide))
    have h2 : 2 ^ 53 * 2 ^ e ≤ 2 ^ 1080 := by
      rw [← pow_add]
      exact pow_le_pow_right₀ one_le_two (by clear h h1; omega)
    exact absurd (h1.trans_le h2) (not_lt.2 h)
  exact Dvd.dvd.mul_left (pow_dvd_pow 2 this) c

/-- Below the lower end, `a` units below it, the scaled value is that of the negative sum `-a`. -/
theorem quantScaled_of_negative_sum {v off span : Code} {o s a : Nat} {k : Int}
    (hoff : fpOfBits off = .fin false (o * fpOne)) (hspan : fpOfBits span = .fin false (s * fpOne))
    (hk : realUnits? v = some k) (ha : k + o * fpOne = -(a : Int)) (ha0 : 0 < a) :
    quantScaled v off span =
      fmul (fdiv (fpRound true a 1) (.fin false (s * fpOne))) (.fin false (2 ^ 32 * fpOne)) := by
  obtain ⟨neg, m, hv, hkm⟩ : ∃ neg m, fpOfBits v = .fin neg m ∧ signedUnits neg m = k := by
    unfold realUnits? at hk
    split at hk <;> simp_all
  have hadd : fadd (fpOfBits v) (fpOfBits off) = fpRound true a 1 := by
    rw [hv, hoff]
    unfold fadd
    simp only
    rw [hkm, signedUnits_false, Nat.cast_mul, ha, if_neg (by omega), Int.natAbs_neg,
      Int.natAbs_natCast]
    simp [ha0]
  unfold quantScaled
  simp only
  rw [hadd, hspan, fpOfBits_patternTwo32]

/-- Less than one fixed-point step below the lower end the scaled value is above -1. -/
theorem quantScaled_above_minus_one {v off span : Code} {o s a : Nat} {k : Int}
    (hoff : fpOfBits off = .fin false (o * fpOne)) (hspan : fpOfBits span = .fin false (s * fpOne))
    (ho64 : 64 ≤ o) (hs0 : 0 < s) (hs : s ≤ 512) (hk : realUnits? v = some k)
    (ha : k + o * fpOne = -(a : Int)) (ha0 : 0 < a) (hlt : a * 2 ^ 32 < s * fpOne) :
    ∃ m, quantScaled v off span = .fin true m ∧ m < fpOne := by
  have hf := fpOne_pos
  have hsf : 0 < s * fpOne := Nat.mul_pos hs0 hf
  have hne : s * fpOne ≠ 0 := by omega
  rw [quantScaled_of_negative_sum hoff hspan hk ha ha0]
  obtain ⟨neg, m, hv, hkm⟩ : ∃ neg m, fpOfBits v = .fin neg m ∧ signedUnits neg m = k := by
    unfold realUnits? at hk
    split at hk <;> simp_all
  have hone := fpOne_eq
  -- `a` is a multiple of the spacing of patterns of this size
  have hmag : (m : Int) = a + o * fpOne := by
    cases neg
    · rw [signedUnits_false] at hkm
      have : (0 : Int) ≤ o * fpOne := by positivity
      omega
    · rw [signedUnits_true] at hkm
      omega
  have hmn : m = a + o * fpOne := by exact_mod_cast hmag
  have hdo : 2 ^ 1028 ∣ o * fpOne := by
    rw [hone]
    exact Dvd.dvd.mul_left (pow_dvd_pow 2 (by decide)) o
  have hbig : 2 ^ 1080 ≤ m := by
    have h1 : 64 * fpOne ≤ o * fpOne := Nat.mul_le_mul_right _ ho64
    have h2 : 64 * fpOne = 2 ^ 1080 := by
      rw [hone, show 64 = 2 ^ 6 by rfl, ← pow_add]
    rw [← h2, hmn]
    exact h1.trans (Nat.le_add_left _ _)
  obtain ⟨c, hc⟩ : 2 ^ 1028 ∣ a := by
    have h1 := spacing_dvd_of_le (fpOfBits_representable hv) hbig
    rw [hmn] at h1
    exact (Nat.dvd_add_iff_left hdo).2 h1
  -- counted in that spacing, `a` is below the step by at least one
  obtain ⟨u, hu, hunit⟩ : ∃ u, u = 2 ^ 1019 ∧ fpOne = u * 2 ^ 55 :=
    ⟨_, rfl, by rw [hone, ← pow_add]⟩
  have hu0 : 0 < u := by rw [hu]; positivity
  have hcu : a = u * 2 ^ 9 * c := by rw [hc, hu, ← pow_add]
  have hcs : c < s * 2 ^ 14 := by
    rw [hcu, hunit] at hlt
    have h1 : u * (c * 2 ^ 41) < u * (s * 2 ^ 55) := by
      calc u * (c * 2 ^ 41) = u * 2 ^ 9 * c * 2 ^ 32 := by ring
        _ < s * (u * 2 ^ 55) := hlt
        _ = _ := by ring
    have := Nat.lt_of_mul_lt_mul_left h1
    omega
  have hA : fpRepresentable a := ⟨c, 1028, by omega, by rw [hc, Nat.mul_comm]⟩
  have e1 : fpRound true a 1 = .fin true a := by
    rw [fpRound_eq_fin 1 (by decide) (by decide) (by
      rw [hcu, hunit]
      calc u * 2 ^ 9 * c ≤ u * 2 ^ 9 * 2 ^ 46 := Nat.mul_le_mul_left _ (by omega)
        _ = _ := by ring)]
    have := roundUnits_exact (m := a) (den := 1) (by decide) hA
    rw [mul_one] at this
    rw [this]
  have hB : fpRepresentable ((2 ^ 23 - 1) * u) := ⟨2 ^ 23 - 1, 1019, by decide, by rw [hu]⟩
  have hq : a * fpOne ≤ (2 ^ 23 - 1) * u * (s * fpOne) := by
    have h1 : 2 ^ 9 * c ≤ (2 ^ 23 - 1) * s := by omega
    calc a * fpOne = u * fpOne * (2 ^ 9 * c) := by rw [hcu]; ring
      _ ≤ u * fpOne * ((2 ^ 23 - 1) * s) := Nat.mul_le_mul_left _ h1
      _ = _ := by ring
  have e2 := roundUnits_le hsf hB hq
  have e3 : fdiv (.fin true a) (.fin false (s * fpOne)) =
      .fin true (roundUnits (a * fpOne) (s * fpOne)) := by
    unfold fdiv
    simp only
    rw [if_neg hne]
    exact fpRound_eq_fin 1 hsf (by decide) (hq.trans (Nat.mul_le_mul_right _ (by
      rw [hunit, one_mul, Nat.mul_comm u]
      exact Nat.mul_le_mul_right _ (by decide))))
  rw [e1, e3]
  generalize roundUnits (a * fpOne) (s * fpOne) = q at e2 ⊢
  have hp : q * (2 ^ 32 * fpOne) ≤ (2 ^ 23 - 1) * u * 2 ^ 32 * fpOne := by
    calc _ ≤ (2 ^ 23 - 1) * u * (2 ^ 32 * fpOne) := Nat.mul_le_mul_right _ e2
      _ = _ := by ring
  have hC : fpRepresentable ((2 ^ 23 - 1) * u * 2 ^ 32) :=
    ⟨2 ^ 23 - 1, 1051, by decide, by rw [hu, mul_assoc, ← pow_add]⟩
  have hCone : (2 ^ 23 - 1) * u * 2 ^ 32 < fpOne := by
    calc (2 ^ 23 - 1) * u * 2 ^ 32 = u * ((2 ^ 23 - 1) * 2 ^ 32) := by ring
      _ < u * 2 ^ 55 := Nat.mul_lt_mul_of_pos_left (by decide) hu0
      _ = fpOne := hunit.symm
  refine ⟨roundUnits (q * (2 ^ 32 * fpOne)) fpOne, ?_, lt_of_le_of_lt (roundUnits_le hf hC hp) hCone⟩
  have hm : fmul (.fin true q) (.fin false (2 ^ 32 * fpOne)) =
      fpRound true (q * (2 ^ 32 * fpOne)) fpOne := rfl
  rw [hm]
  exact fpRound_eq_fin 1 hf (by decide)
    (hp.trans (Nat.mul_le_mul_right _ (by rw [one_mul]; exact hCone.le)))

/-- One fixed-point step below the lower end, and from there down, the scaled value is at or below -1. -/
theorem quantScaled_at_most_minus_one {v off span : Code} {o s a : Nat} {k : Int}
    (hoff : fpOfBits off = .fin false (o * fpOne)) (hspan : fpOfBits span = .fin false (s * fpOne))
    (hs0 : 0 < s) (hs : s ≤ 512) (hk : realUnits? v = some k)
    (ha : k + o * fpOne = -(a : Int)) (ha0 : 0 < a) (hle : s * fpOne ≤ a * 2 ^ 32) :
    quantScaled v off span = .inf true ∨
      ∃ m, quantScaled v off span = .fin true m ∧ fpOne ≤ m := by
  have hf := fpOne_pos
  have hsf : 0 < s * fpOne := Nat.mul_pos hs0 hf
  have hne : s * fpOne ≠ 0 := by omega
  have hne' : 2 ^ 32 * fpOne ≠ 0 := by positivity
  have hone := fpOne_eq
  rw [quantScaled_of_negative_sum hoff hspan hk ha ha0]
  obtain ⟨u, hu, hunit⟩ : ∃ u, u = 2 ^ 1042 ∧ fpOne = u * 2 ^ 32 :=
    ⟨_, rfl, by rw [hone, ← pow_add]⟩
  have hsu : s * u ≤ a := by
    rw [hunit, ← mul_assoc] at hle
    exact Nat.le_of_mul_le_mul_right hle (by decide)
  have r1 : fpRepresentable (s * u) := ⟨s, 1042, by omega, by rw [hu]⟩
  have r2 : fpRepresentable u := ⟨1, 1042, by decide, by rw [hu, one_mul]⟩
  have r3 : fpRepresentable fpOne := ⟨1, 1074, by decide, by rw [hone, one_mul]⟩
  rcases fpRound_ge (neg := true) (num := a) (den := 1) (by decide) r1
    (by rw [mul_one]; exact hsu) with h1 | ⟨x, h1, hx⟩
  · rw [h1]
    left
    unfold fdiv
    simp only
    unfold fmul
    simp only
    rw [if_neg hne']
    rfl
  · rw [h1]
    have hd : fdiv (.fin true x) (.fin false (s * fpOne)) = fpRound true (x * fpOne) (s * fpOne) := by
      unfold fdiv
      simp only
      rw [if_neg hne]
      rfl
    rw [hd]
    rcases fpRound_ge (neg := true) hsf r2 (by
      calc u * (s * fpOne) = s * u * fpOne := by ring
        _ ≤ x * fpOne := Nat.mul_le_mul_right _ hx) with h2 | ⟨y, h2, hy⟩
    · rw [h2]
      left
      unfold fmul
      simp only
      rw [if_neg hne']
      rfl
    · rw [h2]
      have hm : fmul (.fin true y) (.fin false (2 ^ 32 * fpOne)) =
          fpRound true (y * (2 ^ 32 * fpOne)) fpOne := by
        unfold fmul
        rfl
      rw [hm]
      refine fpRound_ge hf r3 ?_
      calc fpOne * fpOne = u * (2 ^ 32 * fpOne) := by nth_rewrite 1 [hunit]; ring
        _ ≤ _ := Nat.mul_le_mul_right _ hy

/-- A negative scaled value narrows to 0 above -1 and is out of range at or below it (R80). -/
theorem narrow32?_fin_true (m : Nat) :
    narrow32? (.fin true m) = if m < fpOne then some 0#32 else none := by
  have hf := fpOne_pos
  have hn : narrow32? (.fin true m) = narrowInteger? (-((m / fpOne : Nat) : Int)) := rfl
  rw [hn]
  unfold narrowInteger?
  by_cases h : m < fpOne
  · rw [if_pos h, Nat.div_eq_of_lt h]
    rfl
  · have : 0 < m / fpOne := Nat.div_pos (by omega) hf
    rw [if_neg h, if_neg (by omega)]

/-! ### The dequantiser -/

/-- The exact real of a dequantised pattern (R85). -/
theorem realUnits_dequant (q : Fixed) {span off : Nat} (hs : span ≤ 2 ^ 20) (ho : off ≤ 2 ^ 20) :
    ∃ u, realUnits? (dequant q span off) = some u ∧
      u * 2 ^ 32 = (q.toNat * span - off * 2 ^ 32) * fpOne := by
  have hq : q.toNat < 2 ^ 32 := q.isLt
  have hprod : q.toNat * span ≤ 2 ^ 32 * 2 ^ 20 := Nat.mul_le_mul hq.le hs
  have hk : ((q.toNat * span : Nat) - (off * 2 ^ 32 : Nat) : Int).natAbs < 2 ^ 53 := by omega
  obtain ⟨u, hu, he⟩ := realUnits_f64_scaled hk (show 32 ≤ 1022 by decide)
  refine ⟨u, hu, ?_⟩
  rw [he]
  push_cast
  ring

end Sys2Proof.Machine
end

