-- ==== Sys2Proof/Tests/Slice0.lean ====
section
/-! SUPPORT. The model's own tests. Words are written out from spec/30_encoding.md R60 to R64;
expected results come from the vectors of spec/95_test_vectors.md or the examples of the command's
rule, named at each test. After them, a witness for the hypotheses of each obligation. -/

namespace Sys2Proof.Tests

-- The kernel checks below are run one after another: in parallel they take a thread each.
set_option Elab.async false

open Sys2Proof Sys2Proof.Machine

/-- The next state, if there is one. -/
def got (r : Result) : Option State :=
  match r with
  | .next t => some t
  | .fault _ => none
  | .refused _ => none

/-- One field of the next state. -/
def field {α : Type} (r : Result) (f : State → α) : Option α := (got r).map f

/-- Reset, then a point written. -/
def atPoint (lat lon : Code) : State := { State.reset with lat := lat, lon := lon }

/-- Reset, then `CODE` written. -/
def withCode (c : Code) : State := { State.reset with code := c }

/-- Reset, then the projections written. -/
def withQ (a o : Fixed) : State := { State.reset with qlat := a, qlon := o }

/-- A text buffer of the given bytes, zeros after them. -/
def buffer (bs : List Nat) : Vector Byte 12 := Vector.ofFn fun i => BitVec.ofNat 8 (bs.getD i.val 0)

/-- Reset, then a text and its length written. -/
def withText (bs : List Nat) (n : Nat) : State :=
  { State.reset with txt := buffer bs, tlen := BitVec.ofNat 4 n }

/-- The scenario's original point (95 section 2.1). -/
def scenario : State := atPoint 0x404379E10F79F087#64 0xC053495502FC33C3#64

/-- The bytes of `dqcjs`. -/
def dqcjs : List Nat := [0x64, 0x71, 0x63, 0x6A, 0x73]

/-! ### Well-formedness: one ill-formed term for each check -/

theorem test_mdec_128_ill_formed : (Instr.mdec 128).wellFormed = false := by decide

theorem test_trunc_128_ill_formed : (Instr.trunc 128).wellFormed = false := by decide

theorem test_geohash_128_ill_formed : (Instr.geohash 128).wellFormed = false := by decide

theorem test_bits_128_ill_formed : (Instr.bits 128).wellFormed = false := by decide

theorem test_prec_128_ill_formed : (Instr.prec 128).wellFormed = false := by decide

theorem test_err_128_ill_formed : (Instr.err 128).wellFormed = false := by decide

/-! ### Decoding: op in bits 15:8, zero in bit 7, immediate in 6:0 -/

theorem test_decode_format_n_0 :
    decode 0b0000000000000000#16 = .command .nop ∧ decode 0b0000000100000000#16 = .command .qnt ∧
    decode 0b0000001000000000#16 = .command .dqnt := by decide

theorem test_decode_bitspread :
    decode 0b0000001100000000#16 = .command .spread ∧
    decode 0b0000010000000000#16 = .command .squash ∧
    decode 0b0000010100000000#16 = .command .ilv ∧
    decode 0b0000011000000000#16 = .command .dilv := by decide

theorem test_decode_morton :
    decode 0b0000011100000000#16 = .command .menc ∧
    decode 0b0000100000011001#16 = .command (.mdec 25) ∧
    decode 0b0000100100110000#16 = .command (.trunc 48) := by decide

theorem test_decode_base32 :
    decode 0b0000101000000000#16 = .command .b32e ∧
    decode 0b0000101100000000#16 = .command .b32d := by decide

theorem test_decode_geohash :
    decode 0b0000110000011001#16 = .command (.geohash 25) ∧
    decode 0b0000110100000000#16 = .command .locate := by decide

theorem test_decode_precision :
    decode 0b0000111000000110#16 = .command (.bits 6) ∧
    decode 0b0000111100110000#16 = .command (.prec 48) ∧
    decode 0b0001000000110000#16 = .command (.err 48) := by decide

/-- Reserved words of 95 section 2.7. -/
theorem test_decode_reserved :
    decode 0x0001#16 = .reserved .immediateNotZero ∧ decode 0x0080#16 = .reserved .bit7Set ∧
    decode 0x07FF#16 = .reserved .bit7Set ∧ decode 0x0C83#16 = .reserved .bit7Set ∧
    decode 0x0D01#16 = .reserved .immediateNotZero ∧ decode 0x1080#16 = .reserved .bit7Set ∧
    decode 0x1100#16 = .reserved .unassignedOp ∧ decode 0x8000#16 = .reserved .unassignedOp := by
  decide

/-- The words the spec prints for commands (R124, R126, R161, R181, R183, R185). -/
theorem test_encode_printed_words :
    encode (.mdec 65) = 0x0841#16 ∧ encode (.trunc 28) = 0x091C#16 ∧
    encode (.geohash 61) = 0x0C3D#16 ∧ encode (.bits 127) = 0x0E7F#16 ∧
    encode (.prec 48) = 0x0F30#16 ∧ encode (.err 127) = 0x107F#16 := by decide

/-! ### Commands -/

/-- R70, example. -/
theorem test_nop_clears_code :
    field (exec .nop { State.reset with status := 0x02#8 }) (·.status) = some 0x00#8 := by decide +kernel

/-- R84, example. -/
theorem test_qnt_scenario :
    field (exec .qnt scenario) (fun t => (t.qlat, t.qlon)) =
      some (0xB7660E64#32, 0x49240880#32) := by decide +kernel

/-- R83 and 95 section 2.1: the last in-range pattern, the tie after it, and truncation toward
zero below the lower end. -/
theorem test_quantiser_range_ends :
    quantLat? 0x40567FFFFFFFFFFE#64 = some 0xFFFFFFFF#32 ∧ quantLat? 0x40567FFFFFFFFFFF#64 = none ∧
    quantLat? 0xC0568000000002C0#64 = some 0#32 ∧ quantLat? 0xC056C00000000000#64 = none ∧
    quantLon? 0x40667FFFFFFFFFFF#64 = none ∧ quantLat? 0x7FF8000000000000#64 = none := by decide +kernel

/-- R86, example. -/
theorem test_dqnt_example :
    field (exec .dqnt (withQ 0xB7660E64#32 0x49240880#32)) (fun t => (t.lat, t.lon)) =
      some (0x404379E10F280000#64, 0xC053495503000000#64) := by decide +kernel

/-- R86, corner cases: both zeros are plus zero at 0x80000000; the greatest projections. -/
theorem test_dqnt_ends :
    field (exec .dqnt (withQ 0x80000000#32 0xFFFFFFFF#32)) (fun t => (t.lat, t.lon)) =
      some (0#64, 0x40667FFFFFD30000#64) := by decide +kernel

/-- 95 section 2.2. -/
theorem test_spread_ignores_high_half :
    field (exec .spread (withCode 0xABCDEF01DEADBEEF#64)) (·.code) = some 0x5154445145545455#64 := by decide +kernel

/-- R107, example. -/
theorem test_squash_example :
    field (exec .squash (withCode 0xA2D9C0F1E3B58764#64)) (·.code) = some 0x000000000D8D973A#64 := by decide +kernel

/-- R101 and R103, traces. -/
theorem test_networks_examples :
    spreadNetwork 0x12345678#32 = 0x0104051011141540#64 ∧
    squashNetwork 0xA2D9C0F1E3B58764#64 = 0x0D8D973A#32 := by decide +kernel

/-- R108, example. -/
theorem test_ilv_example :
    field (exec .ilv (withQ 0xB7660E64#32 0x49240880#32)) (·.code) = some 0x65971C3400D49410#64 := by decide +kernel

/-- R109, example. -/
theorem test_dilv_top_bit_is_longitude :
    field (exec .dilv (withCode 0x8000000000000000#64)) (fun t => (t.qlat, t.qlon)) =
      some (0#32, 0x80000000#32) := by decide +kernel

/-- R121, example. -/
theorem test_menc_scenario :
    field (exec .menc scenario) (·.code) = some 0x65971C3400D49410#64 := by decide +kernel

/-- P6: the draw reaches `QLAT` and `CODE` alike, and longitude -180 gives 0. -/
theorem test_menc_draw_is_shared :
    field (exec .menc (atPoint 0x40567FFFFFFFFFFF#64 0xC066800000000000#64))
      (fun t => (t.qlon, t.fc)) = some (0#32, 0#3) := by decide +kernel

/-- R124, example. -/
theorem test_mdec_25 :
    field (exec (.mdec 25) (withCode 0x0000000000CB2E38#64))
      (fun t => (t.qlat, t.qlon, t.lat, t.lon, t.code)) =
      some (0xB7600000#32, 0x49200000#32, 0x404377C000000000#64, 0xC0534AC000000000#64,
        0x0000000000CB2E38#64) := by decide +kernel

/-- R124: `MDEC 65`. -/
theorem test_mdec_65_faults :
    field (exec (.mdec 65) (withCode 1#64)) (fun t => (t.fc, t.lat, t.code)) =
      some (1#3, 0#64, 1#64) := by decide +kernel

/-- R126, example, and the shift by 64. -/
theorem test_trunc_48_and_0 :
    field (exec (.trunc 48) (withCode 0x65971C3400D49410#64)) (·.code) =
      some 0x65971C3400D40000#64 ∧
    field (exec (.trunc 0) (withCode 0x65971C3400D49410#64)) (·.code) = some 0#64 := by decide +kernel

/-- 95 section 2.3. -/
theorem test_trunc_65_faults :
    field (exec (.trunc 65) (withCode 7#64)) (fun t => (t.fc, t.code)) = some (1#3, 7#64) := by decide +kernel

/-- R44, example. -/
theorem test_be8_example :
    be8 0x65971C3400D40000#64 =
      [0x65#8, 0x97#8, 0x1C#8, 0x34#8, 0x00#8, 0xD4#8, 0x00#8, 0x00#8] := by decide +kernel

/-- R142, example: `28u5dy4urmgg`. -/
theorem test_b32e_example :
    field (exec .b32e (withCode 0x0123456789ABCDEF#64)) (fun t => (t.txt, t.tlen)) =
      some (buffer [0x32, 0x38, 0x75, 0x35, 0x64, 0x79, 0x34, 0x75, 0x72, 0x6D, 0x67, 0x67], 12#4) := by decide +kernel

/-- R142: bits 63:60 are ignored. -/
theorem test_b32e_ignores_top_bits :
    field (exec .b32e (withCode 0xF000000000000000#64)) (·.txt) =
      some (buffer (List.replicate 12 0x30)) := by decide +kernel

/-- R145, example: `dqcjs`. -/
theorem test_b32d_example :
    field (exec .b32d (withText dqcjs 5)) (·.code) = some 0x0000000000CB2E38#64 := by decide +kernel

/-- R206: `TLEN = 13` with an invalid first character; and `TLEN = 4` does not look at the fifth. -/
theorem test_b32d_length_before_characters :
    field (exec .b32d (withText [0x41] 13)) (·.fc) = some 1#3 ∧
    field (exec .b32d (withText [0x64, 0x71, 0x63, 0x6A, 0x61] 5)) (·.fc) = some 2#3 ∧
    field (exec .b32d (withText [0x64, 0x71, 0x63, 0x6A, 0x61] 4)) (·.code) = some 0x65971#64 := by decide +kernel

/-- R161, example: `dqcjs`, then zeros. -/
theorem test_geohash_25 :
    field (exec (.geohash 25) scenario) (fun t => (t.txt, t.tlen, t.code)) =
      some (buffer dqcjs, 5#4, 0x65971C3400D49410#64) := by decide +kernel

/-- R161: `GEOHASH 61` changes nothing but the code. -/
theorem test_geohash_61_faults :
    field (exec (.geohash 61) scenario) (fun t => (t.fc, t.code, t.tlen)) = some (1#3, 0#64, 0#4) := by decide +kernel

/-- R163, example: `ezs42`. -/
theorem test_locate_example :
    field (exec .locate (withText [0x65, 0x7A, 0x73, 0x34, 0x32] 5))
      (fun t => (t.code, t.qlat, t.qlon, t.lat, t.lon, t.nbits)) =
      some (0xDFE082#64, 0xBC900000#32, 0x7C000000#32, 0x40454AA000000000#64,
        0xC016800000000000#64, 25#16) := by decide +kernel

/-- R163: an empty text, and `dqcjo`. -/
theorem test_locate_faults :
    field (exec .locate State.reset) (·.fc) = some 1#3 ∧
    field (exec .locate (withText [0x64, 0x71, 0x63, 0x6A, 0x6F] 5)) (·.fc) = some 2#3 := by decide +kernel

/-- R181, corner case. -/
theorem test_bits_127 :
    field (exec (.bits 127) State.reset) (·.nbits) = some 0x0214#16 := by decide +kernel

/-- R183, corner cases. -/
theorem test_prec_0_and_50 :
    field (exec (.prec 0) State.reset) (·.nbits) = some 0xFFFA#16 ∧
    field (exec (.prec 50) State.reset) (·.nbits) = some 6#16 := by decide +kernel

/-- R185, table. -/
theorem test_err_25_and_48 :
    field (exec (.err 25) State.reset) (fun t => (t.elat, t.elon)) =
      some (0x3FA6800000000000#64, 0x3FA6800000000000#64) ∧
    field (exec (.err 48) State.reset) (fun t => (t.elat, t.elon)) =
      some (0x3EE6800000000000#64, 0x3EF6800000000000#64) := by decide +kernel

/-- R185: outside the range, `FC = 0`. -/
theorem test_err_0_is_no_fault :
    field (exec (.err 0) State.reset) (·.fc) = some 0#3 := by decide +kernel

/-- 95 section 2.7: `0xFFFF` gives `FC = 3` and nothing else. -/
theorem test_reserved_word :
    field (issue 0xFFFF#16 scenario) (fun t => (t.status, t.lat)) =
      some (0x03#8, 0x404379E10F79F087#64) := by decide +kernel

/-- The word of `GEOHASH 60` placed after reset runs in the next step (P5 step 3, `s00000000000`). -/
theorem test_fetch_word_runs_next :
    field (step (State.reset.withFetchWord 16 0x0C3C)) (fun t => (t.txt, t.code)) =
      some (buffer (0x73 :: List.replicate 11 0x30), 0xC000000000000000#64) := by decide +kernel

/-- 95 section 2.7: a host write to `STATUS` is ignored. -/
theorem test_host_write_status_ignored :
    field (step { State.reset with status := 0x01#8, pending := [.write (.status 0x00#8)] })
      (·.status) = some 0x01#8 := by decide +kernel

/-- R19: a read of `TXT[4]`. -/
theorem test_host_read_answers :
    field (step { withText dqcjs 5 with pending := [.read (.txt 4)] }) (·.answer) =
      some (some (.txt 4 0x73#8)) := by decide +kernel

/-- R68: `GEOHASH 25`, `MENC`. -/
theorem test_listing :
    (Instr.geohash 25).listing = "GEOHASH 25" ∧ Instr.menc.listing = "MENC" := by decide +kernel

/-- R68: `WR TXT, "dqcjs"` is the writes of its bytes in order (here the first two). -/
theorem test_text_writes :
    textWrites [0x64#8, 0x71#8] = [.write (.txt 0 0x64#8), .write (.txt 1 0x71#8)] := by decide +kernel

/-- R230: a reset after a text was written. -/
theorem test_reset_event :
    field (step { withText dqcjs 5 with pending := [.reset] }) (fun t => (t.txt, t.tlen)) =
      some (buffer [], 0#4) := by decide +kernel

/-! ### Witnesses for the hypotheses of the obligations -/

theorem witness_DecodeOfEncodeIsTheCommand :
    (Instr.err 127).wellFormed = true ∧ (Instr.mdec 0).wellFormed = true ∧ Instr.nop.wellFormed = true := by decide +kernel

theorem witness_EncodeOfDecodeIsTheWord :
    decode 0x087F#16 = .command (.mdec 127) ∧ decode 0x0D00#16 = .command .locate := by decide +kernel

theorem witness_DecodeFollowsTheOpcodeMap :
    (⟨"ERR", 0x1000#16, 0xFF80#16⟩ : OpcodeRow) ∈ opcodeTable ∧
    (⟨"ERR", 0x1000#16, 0xFF80#16⟩ : OpcodeRow).selects 0x107F#16 = true ∧
    decode 0x107F#16 = .command (.err 127) := by decide +kernel

theorem witness_StepRunsTheDecodedCommand :
    { State.reset with pending := [.issue 0x0E06#16] }.pending = .issue 0x0E06#16 :: [] ∧
    decode 0x0E06#16 = .command (.bits 6) ∧ decodeTableWord 16 0x0E06 = some (.bits 6) ∧
    { scenario with pending := [.issue 0x0D01#16, .reset] }.pending = .issue 0x0D01#16 :: [.reset] ∧
    decode 0x0D01#16 = .reserved .immediateNotZero := by decide +kernel

theorem witness_StepPerformsTheOtherHostActions :
    { State.reset with pending := [.reset] }.pending = .reset :: [] ∧
    { State.reset with pending := [.write (.tlen 13#4)] }.pending = .write (.tlen 13#4) :: [] ∧
    { State.reset with pending := [.read .status] }.pending = .read .status :: [] ∧
    State.reset.pending = [] := by decide +kernel

theorem witness_EveryStepKeepsStatusLegal :
    ∃ s t : State, s.statusLegal ∧ step s = .next t ∧ t.fc = 3#3 := 
  ⟨State.reset.withFetchWord 16 0xFFFF, State.reset.setFC .illegalCommand,
    by unfold State.statusLegal; decide +kernel, rfl, by decide +kernel⟩

theorem witness_ResetEventGivesEveryRegisterItsResetValue :
    { scenario with pending := [.reset] }.pending = .reset :: [] := by decide +kernel

theorem witness_HostWriteChangesOneRegisterAndReadNone :
    { scenario with pending := [.write (.txt 11 0x7A#8)] }.pending = .write (.txt 11 0x7A#8) :: [] ∧
    (∀ x, RegValue.txt 11 0x7A#8 ≠ .status x) ∧
    { scenario with pending := [.read .lat] }.pending = .read .lat :: [] := 
  ⟨rfl, (fun _ h => RegValue.noConfusion h), rfl⟩

theorem witness_ReservedWordRaisesIllegalCommand :
    (∀ r ∈ opcodeTable, r.selects 0x0D01#16 = false) ∧ (∀ r ∈ opcodeTable, r.selects 0x1080#16 = false) := by decide +kernel

theorem witness_FaultChangesOnlyTheStatusCode :
    ∃ t, issue 0x0841#16 scenario = .next t ∧ t.fc ≠ 0#3 := 
  ⟨scenario.setFC .invalidBitCount, rfl, by decide +kernel⟩

theorem witness_EarlierFaultCodeDoesNotPersist :
    ∃ t, issue 0x0D00#16 State.reset = .next t ∧ t.fc ≠ 0#3 := 
  ⟨State.reset.setFC .invalidBitCount, rfl, by decide +kernel⟩

theorem witness_FirstFailingCheckIsReported :
    decode 0x0001#16 = .reserved .immediateNotZero ∧ (withText [0x41] 13).tlen.toNat > 12 ∧
    (1 ≤ (withText [0x41] 12).tlen.toNat ∧ (withText [0x41] 12).tlen.toNat ≤ 12 ∧
      ¬ textValid (withText [0x41] 12)) := 
  ⟨by decide +kernel, by decide +kernel, by decide +kernel, by decide +kernel, fun h =>
    absurd (h 0 (by decide +kernel)) (by unfold charValid; decide +kernel)⟩

theorem witness_ResultDependsOnlyOnTheRegistersRead :
    agreeOn (readsOf .spread) scenario (withCode 0#64) ∧ scenario ≠ withCode 0#64 ∧
    agreeOn (readsOf (.geohash 25)) scenario { scenario with code := 1#64 } ∧
    scenario.draws = ({ scenario with code := 1#64 } : State).draws := 
  ⟨by unfold agreeOn; decide +kernel, by decide +kernel, by unfold agreeOn; decide +kernel, rfl⟩

/-- A tie: `2^53 + 1` lies halfway between two representable magnitudes. -/
theorem witness_RoundingIsToNearestTiesToEven :
    ∃ num den m : Nat, 0 < den ∧ fpRepresentable m ∧ m ≠ roundUnits num den ∧
    distanceTimes (roundUnits num den) num den = distanceTimes m num den := 
  ⟨2 ^ 53 + 1, 1, 2 ^ 53 + 2, by decide, ⟨2 ^ 52 + 1, 1, by decide, by decide⟩, by decide +kernel,
    by decide +kernel⟩

theorem witness_QntWritesEachCoordinateOnItsOwn :
    quantLat? scenario.lat = some 0xB7660E64#32 ∧ quantLon? scenario.lon = some 0x49240880#32 ∧
    quantLat? 0x4056800000000000#64 = none ∧ quantLon? 0x7FF0000000000000#64 = none := by decide +kernel

theorem witness_ExactlyOneInDomainInputOfEachKindIsOutOfRange :
    ∃ k l : Int, realUnits? 0x40567FFFFFFFFFFF#64 = some k ∧ -90 * fpOne ≤ k ∧ k < 90 * fpOne ∧
    realUnits? 0x40667FFFFFFFFFFF#64 = some l ∧ -180 * fpOne ≤ l ∧ l < 180 * fpOne ∧
    realUnits? 0x4056800000000000#64 = some (90 * fpOne) ∧
    realUnits? 0x4066800000000000#64 = some (180 * fpOne) ∧
    realUnits? 0x7FF8000000000000#64 = none := 
  ⟨90 * fpOne - 2 ^ 1028, 180 * fpOne - 2 ^ 1029, by decide +kernel⟩

/-- The example of R83 (`real(p)` in (-1, 0)), and the two longitudes and the latitude at the boundary:
exactly one fixed-point step below the lower end `real(p) = -1`, one pattern above it is in range. -/
theorem witness_TruncationIsTowardZeroBelowTheLowerEnd :
    (∃ k m, realUnits? 0xC0568000000002C0#64 = some k ∧ k < -90 * fpOne ∧
      -180 * fpOne < (k + 90 * fpOne) * 2 ^ 32 ∧
      quantScaled 0xC0568000000002C0#64 pattern90 pattern180 = .fin true m ∧ m < fpOne) ∧
    (∃ k m, realUnits? 0xC0568000002D0000#64 = some k ∧ k < -90 * fpOne ∧
      (k + 90 * fpOne) * 2 ^ 32 ≤ -180 * fpOne ∧
      quantScaled 0xC0568000002D0000#64 pattern90 pattern180 = .fin true m ∧ fpOne ≤ m) ∧
    (∃ k m, realUnits? 0xC0668000002CFFFF#64 = some k ∧ k < -180 * fpOne ∧
      -360 * fpOne < (k + 180 * fpOne) * 2 ^ 32 ∧
      quantScaled 0xC0668000002CFFFF#64 pattern180 pattern360 = .fin true m ∧ m < fpOne) ∧
    (∃ k m, realUnits? 0xC0668000002D0000#64 = some k ∧ k < -180 * fpOne ∧
      (k + 180 * fpOne) * 2 ^ 32 ≤ -360 * fpOne ∧
      quantScaled 0xC0668000002D0000#64 pattern180 pattern360 = .fin true m ∧ fpOne ≤ m) := 
  ⟨⟨-90 * fpOne - 0x2C0 * 2 ^ 1028, 8807039271302303 * 2 ^ 1009, by decide +kernel⟩,
    ⟨-90 * fpOne - 0x2D0000 * 2 ^ 1028, 2 ^ 1074, by decide +kernel⟩,
    ⟨-180 * fpOne - 0x2CFFFF * 2 ^ 1029, 4503598100271013 * 2 ^ 1022, by decide +kernel⟩,
    ⟨-180 * fpOne - 0x2D0000 * 2 ^ 1029, 2 ^ 1074, by decide +kernel⟩⟩

theorem witness_QuantiserLiesBetweenFloorAndCeiling :
    realUnits? 0xC056800000000000#64 = some (-90 * (fpOne : Int)) ∧
    quantLat? 0xC056800000000000#64 = some 0#32 ∧
    realUnits? 0xC066800000000000#64 = some (-180 * (fpOne : Int)) ∧
    quantLon? 0xC066800000000000#64 = some 0#32 := by decide +kernel

theorem witness_ScaledValueIsWithinTwoToMinus19 :
    realUnits? 0x40567FFFFFFFFFFF#64 = some (90 * (fpOne : Int) - 2 ^ 1028) ∧
    -90 * (fpOne : Int) ≤ 90 * (fpOne : Int) - 2 ^ 1028 ∧ 90 * (fpOne : Int) - 2 ^ 1028 < 90 * fpOne ∧
    realUnits? 0xC066800000000000#64 = some (-180 * (fpOne : Int)) ∧ -180 * (fpOne : Int) < 180 * fpOne := by decide +kernel

theorem witness_DqntWritesTheExactReals :
    (withQ 0x80000000#32 0x80000000#32).qlat = 0x80000000#32 ∧
    (withQ 0x80000000#32 0x80000000#32).qlon = 0x80000000#32 := by decide +kernel

/-- Counts 0 and 64 are accepted, 65 is not; the state is any. A projection 0x80000000 is reached by
the examples `CODE = 1` of R124: `MDEC 1` for longitude, `MDEC 2` for latitude, plus zero each. -/
theorem witness_MdecDecodesTheLowBits :
    (0 ≤ 64 ∧ 64 ≤ 64) ∧ 64 < 65 ∧
    field (exec (.mdec 1) (withCode 1#64)) (fun t => (t.qlat, t.lat, t.qlon, t.lon)) =
      some (0#32, 0xC056800000000000#64, 0x80000000#32, 0#64) ∧
    field (exec (.mdec 2) (withCode 1#64)) (fun t => (t.qlat, t.lat, t.qlon, t.lon)) =
      some (0x80000000#32, 0#64, 0#32, 0xC066800000000000#64) := by decide +kernel

theorem witness_MencIsQntThenIlv :
    quantLat? scenario.lat = some 0xB7660E64#32 ∧ quantLon? scenario.lon = some 0x49240880#32 := by
  decide +kernel

theorem witness_TruncKeepsTheTopBits :
    (0 ≤ 64 ∧ 64 ≤ 64) ∧ 64 < 65 ∧
    (∃ t, exec (.trunc 64) scenario = .next t) ∧ ∃ t, exec (.trunc 0) State.reset = .next t := 
  ⟨by decide, by decide, ⟨_, rfl⟩, ⟨_, rfl⟩⟩

/-- The ends of the range of counts; the state and the code are any. -/
theorem witness_MdecOfRightAlignedIsMdecOfTruncated :
    0 ≤ 64 ∧ 64 ≤ 64 := by decide

/-- The ends of the range of counts; the code is any, and the patterns hold finite numbers. -/
theorem witness_TruncationErrorIsBelowTheCellSize :
    (0 ≤ 64 ∧ 64 ≤ 64) ∧
    realUnits? (dequantLat (latOfCode 0xC000000000000000#64)) = some 0 ∧
    realUnits? (dequantLat (latOfCode (0xC000000000000000#64 &&& tmask 1))) =
      some (-90 * (fpOne : Int)) := by decide +kernel

/-- The ends of the range of levels; the state is any. -/
theorem witness_PrecInvertsBits :
    0 ≤ 25 ∧ 25 ≤ 25 := by decide

/-- Texts of length 0, 5 and 12, and the placing of the last character of five. -/
theorem witness_B32eAfterB32dRestoresTheText :
    State.reset.textLength ≤ 12 ∧ textValid State.reset ∧
    (withText dqcjs 5).textLength ≤ 12 ∧ textValid (withText dqcjs 5) ∧
    (0 : Fin 12).val < 12 - (withText dqcjs 5).textLength ∧
    (11 : Fin 12).val = 12 - (withText dqcjs 5).textLength + (4 : Fin 12).val ∧
    (withText (List.replicate 12 0x7A) 12).textLength ≤ 12 ∧
    textValid (withText (List.replicate 12 0x7A) 12) := by
  unfold textValid charValid
  decide +kernel

/-- Texts of length 5, 0 and 12, one too long, one invalid. -/
theorem witness_B32dReadsTheDigits :
    (withText dqcjs 5).textLength ≤ 12 ∧ textValid (withText dqcjs 5) ∧
    State.reset.textLength ≤ 12 ∧ textValid State.reset ∧
    (withText (List.replicate 12 0x7A) 12).textLength ≤ 12 ∧
    textValid (withText (List.replicate 12 0x7A) 12) ∧
    12 < (withText dqcjs 13).textLength ∧
    (withText [0x6F] 1).textLength ≤ 12 ∧ ¬ textValid (withText [0x6F] 1) := by
  unfold textValid charValid
  decide +kernel

theorem witness_DecodedOrderIsLexicographic :
    [1#5, 31#5].length = [2#5, 0#5].length ∧ [1#5, 31#5].length ≤ 12 := by decide

/-- Counts 5 and 60 are accepted, 4 and 61 are not; the state is any, here one in range. -/
theorem witness_GeohashWritesThePrefixOfTheCode :
    (5 ≤ 5 ∧ 60 ≤ 60) ∧ (4 < 5 ∨ 60 < 4) ∧ (61 < 5 ∨ 60 < 61) ∧
    quantLat? scenario.lat = some 0xB7660E64#32 ∧ quantLon? scenario.lon = some 0x49240880#32 := by
  decide +kernel

/-- The ends of the range; the state is any. With 5 and 60, place 0 is in both texts. -/
theorem witness_GeohashOfFewerBitsIsAPrefix :
    (5 ≤ 5 ∧ 5 ≤ 60 ∧ 60 ≤ 60) ∧
    field (exec (.geohash 5) scenario) (·.tlen) = some 1#4 ∧
    field (exec (.geohash 60) scenario) (·.tlen) = some 12#4 := by decide +kernel

/-- The ends of the range and a count that is no multiple of 5 (7 acts as 5); the state is any. -/
theorem witness_GeohashThenLocateTruncatesTheCode :
    (5 ≤ 5 ∧ 60 ≤ 60) ∧ (5 ≤ 7 ∧ 7 ≤ 60 ∧ 5 * (7 / 5) = 5) ∧
    ((got (exec (.geohash 7) scenario)).bind fun t => field (exec .locate t) (·.nbits)) =
      some 5#16 := by decide +kernel

theorem witness_LocateIsB32dThenMdecThenNbits :
    (1 ≤ (withText [0x7A] 1).textLength ∧ (withText [0x7A] 1).textLength ≤ 12 ∧
      textValid (withText [0x7A] 1)) ∧
    State.reset.textLength < 1 ∧ 12 < (withText [] 13).textLength ∧
    (1 ≤ (withText [0x6F] 1).textLength ∧ (withText [0x6F] 1).textLength ≤ 12 ∧
      ¬ textValid (withText [0x6F] 1)) := by
  unfold textValid charValid
  decide +kernel

/-- The last in-range latitude, the lower end of longitude, and a latitude just below the lower end
(the example of R83). -/
theorem witness_GeohashLocateRoundTripIsWithinTheErrorBound :
    (1 ≤ 1 ∧ 12 ≤ 12) ∧
    (∃ la, realUnits? 0x40567FFFFFFFFFFE#64 = some la ∧
      -180 * fpOne < (la + 90 * fpOne) * 2 ^ 32 ∧ la < 90 * fpOne) ∧
    (∃ la, realUnits? 0xC0568000000002C0#64 = some la ∧ la < -90 * fpOne ∧
      -180 * fpOne < (la + 90 * fpOne) * 2 ^ 32 ∧ la < 90 * fpOne) ∧
    (∃ lo, realUnits? 0xC066800000000000#64 = some lo ∧
      -360 * fpOne < (lo + 180 * fpOne) * 2 ^ 32 ∧ lo < 180 * fpOne) ∧
    0x40567FFFFFFFFFFE#64 ≠ 0x40567FFFFFFFFFFF#64 ∧
    0xC0568000000002C0#64 ≠ 0x40567FFFFFFFFFFF#64 ∧
    0xC066800000000000#64 ≠ 0x40667FFFFFFFFFFF#64 := 
  ⟨by decide, ⟨90 * fpOne - 2 ^ 1029, by decide +kernel⟩,
    ⟨-90 * fpOne - 0x2C0 * 2 ^ 1028, by decide +kernel⟩, ⟨-180 * fpOne, by decide +kernel⟩,
    by decide, by decide, by decide⟩

/-- Immediates 0 and 127; the state is any. -/
theorem witness_BitsAndPrecWriteTheirFormulas :
    0 ≤ 127 ∧ 127 ≤ 127 := by decide

theorem witness_ErrWritesTheBoundsOrNaN :
    (1 ≤ 1 ∧ 60 ≤ 60) ∧ (0 = 0 ∨ 60 < 0) ∧ (61 = 0 ∨ 60 < 61) := by decide

end Sys2Proof.Tests
end

/-! ### Proofs of the scope family: the host's actions, and rounding to nearest -/

namespace Sys2Proof.Machine

/-! ### One step, by the host's next action -/

/-- With an action pending, a step performs it on the state without it. -/
theorem step_of_pending_cons {s : State} {a : Action} {rest : List Action}
    (h : s.pending = a :: rest) : step s = perform a { s with pending := rest } := by
  obtain ⟨hnil, -⟩ | ⟨b, rest', hcons, hstep⟩ := step_cases s
  · simp [hnil] at h
  · obtain ⟨rfl, rfl⟩ := List.cons.inj (hcons.symm.trans h)
    exact hstep

/-- With no action pending, the block waits (R231). -/
theorem step_of_pending_nil {s : State} (h : s.pending = []) : step s = .next s := by
  obtain ⟨-, hstep⟩ | ⟨a, rest, hcons, -⟩ := step_cases s
  · exact hstep
  · simp [h] at hcons

theorem issue_of_command {w : CommandWord} {i : Instr} (h : decode w = .command i) (s : State) :
    issue w s = exec i s := by
  simp [issue, h]

theorem issue_of_reserved {w : CommandWord} {why : Reserved} (h : decode w = .reserved why)
    (s : State) : issue w s = .next (s.setFC .illegalCommand) := by
  simp [issue, h, raiseFault]

theorem step_withFetchWord (s : State) (nbits w : Nat) :
    step (s.withFetchWord nbits w) = issue (tableWord nbits w) s :=
  step_of_pending_cons (State.issueNext_pending (tableWord nbits w) s)

theorem decode_tableWord_of_decodeTableWord {nbits w : Nat} {i : Instr}
    (h : decodeTableWord nbits w = some i) : decode (tableWord nbits w) = .command i := by
  unfold decodeTableWord at h
  split at h
  · cases h
  · cases hd : decode (tableWord nbits w) with
    | command j => simpa [hd] using h
    | reserved why => simp [hd] at h

/-- Settles O6: the next action is the issue, and the word's decoding says what the issue does. -/
theorem stepRunsTheDecodedCommand : Obligations.StepRunsTheDecodedCommand := by
  refine ⟨fun s w rest hp => ?_, fun s nbits w => ⟨step_withFetchWord s nbits w, fun i hi => ?_⟩⟩
  · have hstep : step s = issue w { s with pending := rest } := step_of_pending_cons hp
    refine ⟨hstep, fun i hi => ?_, fun why hwhy => ?_⟩
    · rw [hstep, issue_of_command hi]
    · exact ⟨_, hstep.trans (issue_of_reserved hwhy _), rfl, State.fc_setFC .illegalCommand _,
        State.statusReserved_setFC .illegalCommand _⟩
  · rw [step_withFetchWord, issue_of_command (decode_tableWord_of_decodeTableWord hi)]

/-- Settles O7: one clause per kind of action, each `perform` of it, and waiting. -/
theorem stepPerformsTheOtherHostActions : Obligations.StepPerformsTheOtherHostActions :=
  fun _ _ =>
    ⟨fun _ hwrite => step_of_pending_cons hwrite,
      fun _ hread => step_of_pending_cons hread,
      fun hreset => ⟨_, step_of_pending_cons hreset, rfl, rfl, rfl⟩,
      step_of_pending_nil⟩

/-! ### Rounding a quotient to the nearest whole number -/

theorem distanceTimes_floor (num den : Nat) : distanceTimes (num / den) num den = num % den := by
  have hnum : num / den * den + num % den = num := Nat.div_add_mod' num den
  unfold distanceTimes
  omega

theorem distanceTimes_floor_succ {den : Nat} (hd : 0 < den) (num : Nat) :
    distanceTimes (num / den + 1) num den = den - num % den := by
  have hnum : num / den * den + num % den = num := Nat.div_add_mod' num den
  have hmod : num % den < den := Nat.mod_lt num hd
  rw [distanceTimes, Nat.succ_mul]
  omega

/-- A whole number that is no neighbour of the quotient is at least one away from it. -/
theorem le_distanceTimes_of_not_neighbour {num den k : Nat} (hd : 0 < den)
    (hfloor : k ≠ num / den) (hceil : k ≠ num / den + 1) : den ≤ distanceTimes k num den := by
  have hnum : num / den * den + num % den = num := Nat.div_add_mod' num den
  unfold distanceTimes
  rcases Nat.lt_or_gt_of_ne hfloor with hlt | hgt
  · have hmul : (k + 1) * den ≤ num / den * den := Nat.mul_le_mul_right den hlt
    rw [Nat.succ_mul] at hmul
    omega
  · have hmul : (num / den + 2) * den ≤ k * den := Nat.mul_le_mul_right den (by omega)
    rw [Nat.add_mul] at hmul
    have hmod : num % den < den := Nat.mod_lt num hd
    omega

/-- The rounding is the lower or the upper neighbour of the quotient, by the side of the midpoint
the quotient is on, and it is even at the midpoint. -/
theorem divNearestEven_cases (num den : Nat) :
    (divNearestEven num den = num / den ∧ 2 * (num % den) ≤ den ∨
      divNearestEven num den = num / den + 1 ∧ den ≤ 2 * (num % den)) ∧
    (2 * (num % den) = den → divNearestEven num den % 2 = 0) := by
  unfold divNearestEven
  simp only
  split <;> omega

/-- No whole number is nearer than the rounding, and none other is as near unless the rounding is
even: the rounding is at most half a step away, so only its fellow neighbour of the quotient can be
as near, and only at the midpoint. -/
theorem divNearestEven_nearest {den : Nat} (hd : 0 < den) (num : Nat) {k : Nat}
    (hk : k ≠ divNearestEven num den) :
    distanceTimes (divNearestEven num den) num den ≤ distanceTimes k num den ∧
    (distanceTimes (divNearestEven num den) num den = distanceTimes k num den →
      divNearestEven num den % 2 = 0) := by
  have hmod : num % den < den := Nat.mod_lt num hd
  have hfloor := distanceTimes_floor num den
  have hceil := distanceTimes_floor_succ hd num
  obtain ⟨hval, heven⟩ := divNearestEven_cases num den
  by_cases hfar : k ≠ num / den ∧ k ≠ num / den + 1
  · have := le_distanceTimes_of_not_neighbour hd hfar.1 hfar.2
    rcases hval with ⟨hval, hhalf⟩ | ⟨hval, hhalf⟩ <;> rw [hval] at heven ⊢ <;> omega
  · rcases hval with ⟨hval, hhalf⟩ | ⟨hval, hhalf⟩
    · obtain rfl : k = num / den + 1 := by omega
      rw [hval] at heven ⊢
      omega
    · obtain rfl : k = num / den := by omega
      rw [hval] at heven ⊢
      omega

/-! ### Rounding to the nearest binary64 magnitude -/

/-- The spacing is chosen so that the whole part of the magnitude takes at most 53 bits of it. -/
theorem lt_two_pow_53_mul_fpSpacing (q : Nat) : q < 2 ^ 53 * fpSpacing q := by
  calc q < 2 ^ (q.log2 + 1) := Nat.lt_log2_self
    _ ≤ 2 ^ (53 + (q.log2 - 52)) := Nat.pow_le_pow_right (by decide) (by omega)
    _ = 2 ^ 53 * fpSpacing q := pow_add 2 53 _

/-- Distance in units of `1 / den` from a multiple of `g`, read as the distance of the factor from
`num / (den * g)`. -/
theorem distanceTimes_mul (k g num den : Nat) :
    distanceTimes (k * g) num den = distanceTimes k num (den * g) := by
  rw [distanceTimes, distanceTimes, Nat.mul_comm den g, Nat.mul_assoc]

theorem roundUnits_div_fpSpacing (num den : Nat) :
    roundUnits num den / fpSpacing (num / den) =
      divNearestEven num (den * fpSpacing (num / den)) :=
  Nat.mul_div_cancel _ (fpSpacing_pos _)

/-- A rounded magnitude has at most 53 significant bits: rounding up to `2^53` spacings gives the
power of two. -/
theorem fpRepresentable_roundUnits {den : Nat} (hd : 0 < den) (num : Nat) :
    fpRepresentable (roundUnits num den) := by
  have hle : divNearestEven num (den * fpSpacing (num / den)) ≤ 2 ^ 53 := by
    refine divNearestEven_le_of_le_mul (Nat.mul_pos hd (fpSpacing_pos _)) ?_
    calc num ≤ 2 ^ 53 * fpSpacing (num / den) * den :=
          ((Nat.div_lt_iff_lt_mul hd).1 (lt_two_pow_53_mul_fpSpacing (num / den))).le
      _ = 2 ^ 53 * (den * fpSpacing (num / den)) := by rw [Nat.mul_assoc, Nat.mul_comm den]
  rcases hle.lt_or_eq with hlt | heq
  · exact fpRepresentable_mul_pow _ hlt
  · refine ⟨1, 53 + ((num / den).log2 - 52), by decide, ?_⟩
    rw [roundUnits, heq, fpSpacing, one_mul, pow_add]

/-- Among the multiples of the spacing none is nearer than the rounding, and on a tie the rounding's
last significand bit is even. -/
theorem roundUnits_nearest_multiple {den : Nat} (hd : 0 < den) (num : Nat) {m : Nat}
    (hm : fpSpacing (num / den) ∣ m) (hne : m ≠ roundUnits num den) :
    distanceTimes (roundUnits num den) num den ≤ distanceTimes m num den ∧
    (distanceTimes (roundUnits num den) num den = distanceTimes m num den →
      roundUnits num den / fpSpacing (num / den) % 2 = 0) := by
  obtain ⟨k, rfl⟩ := hm
  rw [Nat.mul_comm] at hne ⊢
  rw [roundUnits_div_fpSpacing, roundUnits, distanceTimes_mul, distanceTimes_mul]
  refine divNearestEven_nearest (Nat.mul_pos hd (fpSpacing_pos _)) num fun hk => hne ?_
  rw [hk, roundUnits]

/-- A magnitude below the binade of the exact value is farther than the rounding: the binade's lower
end lies between it and the exact value, and is a multiple of the spacing. -/
theorem roundUnits_nearer_of_lt_binade {num den m : Nat} (hd : 0 < den)
    (hlt : m < 2 ^ (num / den).log2) (hl : 52 ≤ (num / den).log2) :
    distanceTimes (roundUnits num den) num den < distanceTimes m num den := by
  set p := 2 ^ (num / den).log2 with hp
  have hne : num / den ≠ 0 := fun h => by simp [h] at hl
  have hpnum : p * den ≤ num := (Nat.le_div_iff_mul_le hd).1 (Nat.log2_self_le hne)
  have hround : distanceTimes (roundUnits num den) num den ≤ distanceTimes p num den := by
    by_cases h : p = roundUnits num den
    · rw [← h]
    · exact (roundUnits_nearest_multiple hd num (pow_dvd_pow 2 (Nat.sub_le _ _)) h).1
  have hmp : m * den < p * den := Nat.mul_lt_mul_of_pos_right hlt hd
  refine hround.trans_lt ?_
  unfold distanceTimes
  omega

/-- Settles O25: a representable magnitude is a multiple of the spacing, where rounding to the
nearest whole number decides, or lies below the binade, where it is strictly farther. -/
theorem roundingIsToNearestTiesToEven : Obligations.RoundingIsToNearestTiesToEven := by
  refine fun num den hd => ⟨fpRepresentable_roundUnits hd num, fun m hm => ?_⟩
  rcases representable_small_or_multiple (q := num / den) hm with hdvd | ⟨hlt, hl⟩
  · by_cases hne : m = roundUnits num den
    · exact ⟨by rw [hne], fun h => absurd hne h⟩
    · obtain ⟨hle, htie⟩ := roundUnits_nearest_multiple hd num hdvd hne
      exact ⟨hle, fun _ => htie⟩
  · have hfar := roundUnits_nearer_of_lt_binade hd hlt hl
    exact ⟨hfar.le, fun _ heq => absurd heq hfar.ne⟩

end Sys2Proof.Machine

/-! ### Proofs of the state family: what commands and the host read, write and leave alone -/

namespace Sys2Proof.Machine

/-! ### Host writes and reads -/

theorem State.hostRead_hostWrite_same {v : RegValue} (hv : v.reg ≠ .status) (s : State) :
    (s.hostWrite v).hostRead v.reg = v := by
  cases v with
  | status => exact absurd rfl hv
  | txt i x => simp [State.hostRead, State.hostWrite, RegValue.reg]
  | _ => rfl

theorem State.hostRead_hostWrite_of_ne {r : Reg} {v : RegValue} (h : r ≠ v.reg) (s : State) :
    (s.hostWrite v).hostRead r = s.hostRead r := by
  cases v <;> cases r
  case txt.txt i x j =>
    have hij : i.val ≠ j.val := fun hij => h (congrArg Reg.txt (Fin.ext hij.symm))
    simp [State.hostRead, State.hostWrite, Vector.getElem_set_ne _ _ hij]
  case lat.lat | lon.lon | qlat.qlat | qlon.qlon | code.code | nbits.nbits | elat.elat | elon.elon |
      tlen.tlen => exact absurd rfl h
  all_goals rfl

theorem State.hostWrite_setFC (v : RegValue) (c : FaultCode) (s : State) :
    (s.setFC c).hostWrite v = (s.hostWrite v).setFC c := by
  cases v <;> rfl

theorem State.hostRead_setFC {r : Reg} (hr : r ≠ .status) (c : FaultCode) (s : State) :
    (s.setFC c).hostRead r = s.hostRead r := by
  cases r with
  | status => exact absurd rfl hr
  | _ => rfl

/-! ### Several writes -/

/-- The values written to their registers, one after another. -/
def State.writeAll (vs : List RegValue) (s : State) : State := vs.foldl (fun t v => t.hostWrite v) s

@[simp] theorem State.writeAll_nil (s : State) : s.writeAll [] = s := rfl

@[simp] theorem State.writeAll_cons (v : RegValue) (vs : List RegValue) (s : State) :
    s.writeAll (v :: vs) = (s.hostWrite v).writeAll vs := rfl

theorem State.writeAll_append (vs ws : List RegValue) (s : State) :
    s.writeAll (vs ++ ws) = (s.writeAll vs).writeAll ws := List.foldl_append

@[simp] theorem State.writeAll_pending (vs : List RegValue) (s : State) :
    (s.writeAll vs).pending = s.pending := by
  induction vs generalizing s with
  | nil => rfl
  | cons v vs ih => rw [State.writeAll_cons, ih, State.hostWrite_pending]

@[simp] theorem State.writeAll_answer (vs : List RegValue) (s : State) :
    (s.writeAll vs).answer = s.answer := by
  induction vs generalizing s with
  | nil => rfl
  | cons v vs ih => rw [State.writeAll_cons, ih, State.hostWrite_answer]

theorem State.writeAll_setFC (vs : List RegValue) (c : FaultCode) (s : State) :
    (s.setFC c).writeAll vs = (s.writeAll vs).setFC c := by
  induction vs generalizing s with
  | nil => rfl
  | cons v vs ih => rw [State.writeAll_cons, State.hostWrite_setFC, ih, State.writeAll_cons]

theorem State.hostRead_writeAll_of_not_mem {r : Reg} {vs : List RegValue}
    (h : r ∉ vs.map RegValue.reg) (s : State) : (s.writeAll vs).hostRead r = s.hostRead r := by
  induction vs generalizing s with
  | nil => rfl
  | cons v vs ih =>
    obtain ⟨hne, hmem⟩ := not_or.1 (mt List.mem_cons.2 h)
    rw [State.writeAll_cons, ih hmem, State.hostRead_hostWrite_of_ne hne]

/-- What a register holds after the writes does not depend on the state before them, if one of them
writes it. -/
theorem State.hostRead_writeAll_congr {r : Reg} (hr : r ≠ .status) {vs : List RegValue}
    {s s' : State} (h : r ∈ vs.map RegValue.reg ∨ s.hostRead r = s'.hostRead r) :
    (s.writeAll vs).hostRead r = (s'.writeAll vs).hostRead r := by
  induction vs generalizing s s' with
  | nil => exact h.resolve_left List.not_mem_nil
  | cons v vs ih =>
    refine ih ?_
    by_cases hv : r = v.reg
    · subst hv
      rw [State.hostRead_hostWrite_same hr, State.hostRead_hostWrite_same hr]
      exact .inr rfl
    · rw [State.hostRead_hostWrite_of_ne hv, State.hostRead_hostWrite_of_ne hv]
      exact h.imp_left fun hmem => (List.mem_cons.1 hmem).resolve_left hv

/-- The writes of a whole text buffer. -/
def textValues (v : Vector Byte 12) : List RegValue := (List.finRange 12).map fun i => .txt i v[i]

@[simp] theorem map_reg_textValues (v : Vector Byte 12) :
    (textValues v).map RegValue.reg = txtRegs := by
  simp [textValues, txtRegs, RegValue.reg, Function.comp_def]

theorem State.writeAll_map_txt (v : Vector Byte 12) (places : List (Fin 12)) (s : State) :
    s.writeAll (places.map fun i => .txt i v[i]) =
      { s with txt := places.foldl (fun t (i : Fin 12) => t.set i v[i]) s.txt } := by
  induction places generalizing s with
  | nil => rfl
  | cons i places ih => exact ih (s.hostWrite (.txt i v[i]))

theorem getElem_foldl_set (v t : Vector Byte 12) (places : List (Fin 12)) (j : Fin 12) :
    (places.foldl (fun t (i : Fin 12) => t.set i v[i]) t)[j] =
      if j ∈ places then v[j] else t[j] := by
  induction places generalizing t with
  | nil => rfl
  | cons i places ih =>
    rw [List.foldl_cons, ih]
    by_cases hmem : j ∈ places
    · simp [hmem]
    · by_cases hj : j = i
      · subst hj
        simp
      · have hij : i.val ≠ j.val := fun hij => hj (Fin.ext hij.symm)
        simp [hmem, hj, Vector.getElem_set_ne _ _ hij]

/-- Writing every place of `TXT` replaces the buffer. -/
theorem State.writeAll_textValues (v : Vector Byte 12) (s : State) :
    s.writeAll (textValues v) = { s with txt := v } := by
  have htxt : (List.finRange 12).foldl (fun t (i : Fin 12) => t.set i v[i]) s.txt = v :=
    Vector.ext fun k hk => by
      simpa using getElem_foldl_set v s.txt (List.finRange 12) ⟨k, hk⟩
  rw [textValues, State.writeAll_map_txt, htxt]

/-! ### What a command can do, by the registers it reads and writes -/

/-- The end of a successful command that writes these values: a quantising one uses up two draws. -/
def State.withResults (i : Instr) (vs : List RegValue) (s : State) : State :=
  { s.writeAll vs with draws := s.draws + if quantises i then 2 else 0 }

theorem State.withResults_textValues_append (i : Instr) (v : Vector Byte 12)
    (vs : List RegValue) (s : State) :
    s.withResults i (textValues v ++ vs) = ({ s with txt := v } : State).withResults i vs := by
  simp only [State.withResults, State.writeAll_append, State.writeAll_textValues]

/-- Two runs of a command take the same course: both succeed and write the same value to each
register of the command's "written by" entry (R10), or both take the same fault. -/
def RunsAlike (i : Instr) (s s' : State) : Prop :=
  (∃ vs, vs.map RegValue.reg ++ [.status] = writesOf i ∧
    exec i s = commit (s.withResults i vs) ∧ exec i s' = commit (s'.withResults i vs)) ∨
  (∃ c, c ≠ .ok ∧ exec i s = raiseFault c s ∧ exec i s' = raiseFault c s')

/-- Two states that agree on `TXT` and `TLEN` hold the same text. -/
theorem text_eq_of_agreeOn {s s' : State} (h : agreeOn (txtRegs ++ [.tlen]) s s') :
    s.text = s'.text ∧ s.textLength = s'.textLength := by
  have hlen : s.tlen = s'.tlen := RegValue.tlen.inj (h .tlen (by simp))
  have htxt : s.txt = s'.txt := Vector.ext fun k hk =>
    (RegValue.txt.inj (h (.txt ⟨k, hk⟩) (by simp [txtRegs]))).2
  exact ⟨by rw [State.text, htxt, hlen, State.text], congrArg BitVec.toNat hlen⟩

/-- The values a decode of the aligned code `c` writes (R123, R124). -/
def decodedValues (c : Code) : List RegValue :=
  [.lat (dequantLat (latOfCode c)), .lon (dequantLon (lonOfCode c)), .qlat (latOfCode c),
    .qlon (lonOfCode c)]

theorem code_eq_of_agreeOn {s s' : State} (h : agreeOn [.code] s s') : s.code = s'.code :=
  RegValue.code.inj (h .code (by simp))

theorem projections_eq_of_agreeOn {s s' : State} (h : agreeOn [.qlat, .qlon] s s') :
    s.qlat = s'.qlat ∧ s.qlon = s'.qlon :=
  ⟨RegValue.qlat.inj (h .qlat (by simp)), RegValue.qlon.inj (h .qlon (by simp))⟩

/-- Two states that agree on the point and the draw count quantise it alike. -/
theorem quantised_eq_of_agreeOn {s s' : State} (h : agreeOn [.lat, .lon] s s')
    (hdraws : s.draws = s'.draws) : s.quantLat = s'.quantLat ∧ s.quantLon = s'.quantLon := by
  have hlat : s.lat = s'.lat := RegValue.lat.inj (h .lat (by simp))
  have hlon : s.lon = s'.lon := RegValue.lon.inj (h .lon (by simp))
  simp [State.quantLat, State.quantLon, hlat, hlon, hdraws]

/-- A command's course is a function of the registers it reads, and of the draw count when it
quantises (R24). Each case names the values the command writes. -/
theorem runsAlike_of_agreeOn {i : Instr} {s s' : State} (hreads : agreeOn (readsOf i) s s')
    (hdraws : quantises i = true → s.draws = s'.draws) : RunsAlike i s s' := by
  cases i with
  | nop => exact .inl ⟨[], rfl, rfl, rfl⟩
  | qnt =>
    obtain ⟨hlat, hlon⟩ := quantised_eq_of_agreeOn hreads (hdraws rfl)
    refine .inl ⟨[.qlat s.quantLat, .qlon s.quantLon], rfl, rfl, ?_⟩
    rw [hlat, hlon]; rfl
  | dqnt =>
    obtain ⟨hqlat, hqlon⟩ := projections_eq_of_agreeOn hreads
    refine .inl ⟨[.lat (dequantLat s.qlat), .lon (dequantLon s.qlon)], rfl, rfl, ?_⟩
    rw [hqlat, hqlon]; rfl
  | spread =>
    refine .inl ⟨[.code (spread (s.code.setWidth 32))], rfl, rfl, ?_⟩
    rw [code_eq_of_agreeOn hreads]; rfl
  | squash =>
    refine .inl ⟨[.code ((squash s.code).setWidth 64)], rfl, rfl, ?_⟩
    rw [code_eq_of_agreeOn hreads]; rfl
  | ilv =>
    obtain ⟨hqlat, hqlon⟩ := projections_eq_of_agreeOn hreads
    refine .inl ⟨[.code (interleave s.qlat s.qlon)], rfl, rfl, ?_⟩
    rw [hqlat, hqlon]; rfl
  | dilv =>
    refine .inl ⟨[.qlat (latOfCode s.code), .qlon (lonOfCode s.code)], rfl, rfl, ?_⟩
    rw [code_eq_of_agreeOn hreads]; rfl
  | menc =>
    obtain ⟨hlat, hlon⟩ := quantised_eq_of_agreeOn hreads (hdraws rfl)
    refine .inl ⟨[.qlat s.quantLat, .qlon s.quantLon,
      .code (interleave s.quantLat s.quantLon)], rfl, rfl, ?_⟩
    rw [hlat, hlon]; rfl
  | mdec imm =>
    by_cases h : imm > Config.codeBits
    · exact .inr ⟨.invalidBitCount, by decide, if_pos h, if_pos h⟩
    · refine .inl ⟨decodedValues (lalign s.code imm), rfl, if_neg h, ?_⟩
      rw [code_eq_of_agreeOn hreads]
      exact if_neg h
  | trunc imm =>
    by_cases h : imm > Config.codeBits
    · exact .inr ⟨.invalidBitCount, by decide, if_pos h, if_pos h⟩
    · refine .inl ⟨[.code (s.code &&& tmask imm)], rfl, if_neg h, ?_⟩
      rw [code_eq_of_agreeOn hreads]
      exact if_neg h
  | b32e =>
    refine .inl ⟨textValues (b32text s.code Config.digits) ++ [.tlen 12#4],
      by simp [writesOf, RegValue.reg], ?_, ?_⟩
    · rw [State.withResults_textValues_append]; rfl
    · rw [State.withResults_textValues_append, code_eq_of_agreeOn hreads]; rfl
  | b32d =>
    obtain ⟨htext, hlen⟩ := text_eq_of_agreeOn hreads
    simp only [RunsAlike, exec, execB32d, ← htext, ← hlen]
    split
    · exact .inr ⟨.invalidBitCount, by decide, rfl, rfl⟩
    · cases b32dec? s.text with
      | none => exact .inr ⟨.invalidBase32, by decide, rfl, rfl⟩
      | some v => exact .inl ⟨[.code v], rfl, rfl, rfl⟩
  | geohash imm =>
    obtain ⟨hlat, hlon⟩ := quantised_eq_of_agreeOn hreads (hdraws rfl)
    by_cases h : imm < Config.ghMin ∨ imm > Config.ghMax
    · exact .inr ⟨.invalidBitCount, by decide, if_pos h, if_pos h⟩
    · refine .inl ⟨textValues (b32text (shr64 (interleave s.quantLat s.quantLon) Config.ghShift)
          (charsOfBits imm)) ++ [.qlat s.quantLat, .qlon s.quantLon,
            .code (interleave s.quantLat s.quantLon), .tlen (BitVec.ofNat 4 (charsOfBits imm))],
        by simp [writesOf, RegValue.reg], ?_, ?_⟩
      · rw [State.withResults_textValues_append]
        exact if_neg h
      · rw [State.withResults_textValues_append, hlat, hlon]
        exact if_neg h
  | locate =>
    obtain ⟨htext, hlen⟩ := text_eq_of_agreeOn hreads
    simp only [RunsAlike, exec, execLocate, ← htext, ← hlen]
    split
    · exact .inr ⟨.invalidBitCount, by decide, rfl, rfl⟩
    · cases b32dec? s.text with
      | none => exact .inr ⟨.invalidBase32, by decide, rfl, rfl⟩
      | some v =>
        exact .inl ⟨decodedValues (lalign v (bitsOfChars s.textLength)) ++
          [.code v, .nbits (BitVec.ofNat 16 (bitsOfChars s.textLength))], rfl, rfl, rfl⟩
  | bits imm => exact .inl ⟨[.nbits (BitVec.ofNat 16 (bitsOf imm))], rfl, rfl, rfl⟩
  | prec imm => exact .inl ⟨[.nbits (BitVec.ofInt 16 (precOf imm))], rfl, rfl, rfl⟩
  | err imm => exact .inl ⟨[.elat (errorOf imm).1, .elon (errorOf imm).2], rfl, rfl, rfl⟩

/-! ### What follows for one command: its frame, and that it does not read the old code -/

theorem State.hostRead_withResults (r : Reg) (i : Instr) (vs : List RegValue) (s : State) :
    (s.withResults i vs).hostRead r = (s.writeAll vs).hostRead r := by
  cases r <;> rfl

theorem State.withResults_setFC (i : Instr) (vs : List RegValue) (c : FaultCode) (s : State) :
    (s.setFC c).withResults i vs = (s.withResults i vs).setFC c := by
  rw [State.withResults, State.writeAll_setFC]
  rfl

theorem commit_setFC (c : FaultCode) (s : State) : commit (s.setFC c) = commit s := by
  rw [commit, State.setFC_setFC, commit]

theorem raiseFault_setFC (d c : FaultCode) (s : State) :
    raiseFault d (s.setFC c) = raiseFault d s := by
  rw [raiseFault, State.setFC_setFC, raiseFault]

theorem status_mem_writesOf (i : Instr) : .status ∈ writesOf i := by
  cases i <;> simp [writesOf]

theorem status_not_mem_readsOf (i : Instr) : .status ∉ readsOf i := by
  cases i <;> simp [readsOf, txtRegs]

/-- Settles O22: a command that succeeds is a list of writes to its own registers, and one that
faults writes `STATUS`. -/
theorem commandWritesOnlyItsRegisters : Obligations.CommandWritesOnlyItsRegisters := by
  intro i s
  have hself : RunsAlike i s s := runsAlike_of_agreeOn (fun _ _ => rfl) (fun _ => rfl)
  obtain ⟨vs, hregs, hexec, -⟩ | ⟨c, -, hexec, -⟩ := hself
  · refine ⟨_, hexec, fun r hr => ?_, s.writeAll_pending vs, s.writeAll_answer vs, fun hq => ?_⟩
    · rw [← hregs, List.mem_append, not_or, List.mem_singleton] at hr
      obtain ⟨hmem, hstatus⟩ := hr
      rw [State.hostRead_setFC hstatus, State.hostRead_withResults,
        State.hostRead_writeAll_of_not_mem hmem]
    · simp [State.withResults, hq]
  · refine ⟨_, hexec, fun r hr => State.hostRead_setFC ?_ c s, rfl, rfl, fun _ => rfl⟩
    exact fun hstatus => hr (hstatus ▸ status_mem_writesOf i)

/-- Settles O23: runs from states that agree on the registers read write the same values, so they
agree on the registers written; `STATUS` holds the same code. -/
theorem resultDependsOnlyOnTheRegistersRead : Obligations.ResultDependsOnlyOnTheRegistersRead := by
  intro i s s' hreads hdraws
  obtain ⟨vs, hregs, hexec, hexec'⟩ | ⟨c, hc, hexec, hexec'⟩ := runsAlike_of_agreeOn hreads hdraws
  · have hfc : ((s.withResults i vs).setFC .ok).fc = ((s'.withResults i vs).setFC .ok).fc := by simp
    refine ⟨_, _, hexec, hexec', hfc, fun _ r hr => ?_⟩
    by_cases hstatus : r = .status
    · subst hstatus
      exact State.hostRead_status_eq hfc
    · have hmem : r ∈ vs.map RegValue.reg := by
        rw [← hregs, List.mem_append, List.mem_singleton] at hr
        exact hr.resolve_right hstatus
      simp only [State.hostRead_setFC hstatus, State.hostRead_withResults]
      exact State.hostRead_writeAll_congr hstatus (.inl hmem)
  · refine ⟨_, _, hexec, hexec', by simp, fun hok => absurd ?_ hc⟩
    exact FaultCode.toBits_injective ((State.fc_setFC c s).symm.trans hok)

theorem exec_setFC (i : Instr) (c : FaultCode) (s : State) : exec i (s.setFC c) = exec i s := by
  have hreads : agreeOn (readsOf i) (s.setFC c) s := fun r hr =>
    State.hostRead_setFC (fun hstatus => status_not_mem_readsOf i (hstatus ▸ hr)) c s
  obtain ⟨vs, -, hexec, hexec'⟩ | ⟨d, -, hexec, hexec'⟩ :=
    runsAlike_of_agreeOn hreads fun _ => State.setFC_draws c s
  · rw [hexec, hexec', State.withResults_setFC, commit_setFC]
  · rw [hexec, hexec', raiseFault_setFC]

/-! ### Issued words and `STATUS` -/

/-- No issued word reads the code an earlier one left (R18, R23). -/
theorem issue_setFC (w : CommandWord) (c : FaultCode) (s : State) :
    issue w (s.setFC c) = issue w s := by
  cases hw : decode w with
  | command i => rw [issue_of_command hw, issue_of_command hw, exec_setFC]
  | reserved why => rw [issue_of_reserved hw, issue_of_reserved hw, State.setFC_setFC]

/-- An issued word ends by writing a code over the old `STATUS`; a code other than 0 is all it
writes. -/
theorem issue_ends (w : CommandWord) (s : State) :
    ∃ t c, issue w s = .next (t.setFC c) ∧ t.status = s.status ∧ (c ≠ .ok → t = s) := by
  obtain ⟨i, -, hissue⟩ | ⟨why, -, hissue⟩ := issue_cases w s
  · obtain ⟨t, hexec, hstatus, -, -⟩ | ⟨c, -, hexec⟩ := exec_cases i s
    · exact ⟨t, .ok, hissue.trans hexec, hstatus, fun h => absurd rfl h⟩
    · exact ⟨s, c, hissue.trans hexec, rfl, fun _ => rfl⟩
  · exact ⟨s, .illegalCommand, hissue, rfl, fun _ => rfl⟩

/-- An issued word leaves a code of 0 to 3 and the reserved bits as they were (R18). -/
theorem issue_status (w : CommandWord) (s : State) :
    ∃ t, issue w s = .next t ∧ t.fc.toNat ≤ 3 ∧ t.statusReserved = s.statusReserved := by
  obtain ⟨t, c, hissue, hstatus, -⟩ := issue_ends w s
  refine ⟨_, hissue, ?_, ?_⟩
  · rw [State.fc_setFC]
    exact c.toBits_le
  · rw [State.statusReserved_setFC, State.statusReserved, hstatus, State.statusReserved]

/-- A word that faults changes `STATUS.FC` and nothing else (R204). -/
theorem issue_fault {w : CommandWord} {s t : State} (h : issue w s = .next t) (hfc : t.fc ≠ 0#3) :
    ∃ c, t = s.setFC c := by
  obtain ⟨u, c, hissue, -, hfault⟩ := issue_ends w s
  obtain rfl : t = u.setFC c := Host.Outcome.next.inj (h.symm.trans hissue)
  have hc : c ≠ .ok := fun hok => hfc (by rw [State.fc_setFC, hok]; rfl)
  exact ⟨c, by rw [hfault hc]⟩

/-- Settles O14: the first two clauses are the host's access by definition, the others what an
issued word can do to `STATUS`. -/
theorem statusIsReadOnlyAndNeverSticky : Obligations.StatusIsReadOnlyAndNeverSticky :=
  ⟨fun _ _ => rfl, fun _ => rfl, issue_status, fun w s c => issue_setFC w c s⟩

/-- Settles O17: a faulted word leaves only its code, which stays through a host write to the issue
of the next word, and that does not read it. -/
theorem earlierFaultCodeDoesNotPersist : Obligations.EarlierFaultCodeDoesNotPersist := by
  refine ⟨fun w s c => issue_setFC w c s, fun w w' s t v hissue hfc => ?_⟩
  obtain ⟨c, rfl⟩ := issue_fault hissue hfc
  rw [State.hostWrite_setFC, issue_setFC]

/-! ### Reset, host access, and the invariant of `STATUS` -/

/-- Settles O10: `STATUS` is zero. -/
theorem resetStatusIsLegal : Obligations.ResetStatusIsLegal := ⟨by decide, by decide⟩

/-- Settles O11, register by register. -/
theorem resetStateIsAllZero : Obligations.ResetStateIsAllZero :=
  ⟨rfl, rfl, rfl, rfl, rfl, rfl, rfl, rfl, by decide, rfl, rfl⟩

/-- Settles O13: the register written is the one the value belongs to. -/
theorem hostWriteChangesOneRegisterAndReadNone :
    Obligations.HostWriteChangesOneRegisterAndReadNone := by
  refine ⟨fun s rest v hwrite hv => ?_, fun s rest r hread => ?_⟩
  · have hreg : v.reg ≠ .status := by
      cases v with
      | status x => exact absurd rfl (hv x)
      | _ => exact Reg.noConfusion
    refine ⟨_, v.reg, step_of_pending_cons hwrite, hreg, State.hostRead_hostWrite_same hreg _,
      fun r' hr' => ?_, State.hostWrite_status v _, State.hostWrite_draws v _⟩
    rw [State.hostRead_hostWrite_of_ne hr']
    cases r' <;> rfl
  · refine ⟨_, step_of_pending_cons hread, ?_, fun r' => ?_⟩
    · cases r <;> rfl
    · cases r' <;> rfl

/-- Legality depends on the register `STATUS` alone. -/
theorem State.statusLegal_congr {s t : State} (h : t.status = s.status) (hs : s.statusLegal) :
    t.statusLegal := by
  simpa only [State.statusLegal, State.statusReserved, State.fc, h] using hs

/-- Whatever the host does next, a legal `STATUS` stays legal: a write and a read leave it, an issued
word writes its code only, and a reset clears it. -/
theorem perform_statusLegal {a : Action} {s t : State} (hs : s.statusLegal)
    (h : perform a s = .next t) : t.statusLegal := by
  cases a with
  | write v =>
    obtain rfl := Host.Outcome.next.inj h
    exact State.statusLegal_congr (State.hostWrite_status v s) hs
  | read r =>
    obtain rfl := Host.Outcome.next.inj h
    exact hs
  | issue w =>
    obtain ⟨u, hissue, hfc, hreserved⟩ := issue_status w s
    obtain rfl : t = u := Host.Outcome.next.inj (h.symm.trans hissue)
    obtain ⟨hzero, -⟩ := hs
    exact ⟨hreserved.trans hzero, hfc⟩
  | reset =>
    obtain rfl := Host.Outcome.next.inj h
    exact State.statusLegal_congr (State.resetRegisters_status s) resetStatusIsLegal

/-- Settles O9: by cases on whether the host asks for an action, and `perform_statusLegal` for it. -/
theorem everyStepKeepsStatusLegal : Obligations.EveryStepKeepsStatusLegal := by
  intro s t hs hstep
  obtain ⟨-, hwait⟩ | ⟨a, rest, -, hperform⟩ := step_cases s
  · obtain rfl : t = s := Host.Outcome.next.inj (hstep.symm.trans hwait)
    exact hs
  · have hrest : ({ s with pending := rest } : State).statusLegal :=
      State.statusLegal_congr rfl hs
    exact perform_statusLegal hrest (hperform.symm.trans hstep)

end Sys2Proof.Machine

/-! ### Proofs of the memory family: the exported code, and the two tables -/

namespace Sys2Proof.Machine

/-! ### `BE8`: the bytes of a code, most significant first -/

@[simp] theorem length_be8 (v : Code) : (be8 v).length = 8 := by simp [be8]

theorem getElem?_be8 (v : Code) {k : Nat} (hk : k < 8) : (be8 v)[k]? = some (be8Byte v k) := by
  simp [be8, hk]

theorem toNat_be8Byte (v : Code) (k : Nat) :
    (be8Byte v k).toNat = v.toNat / 2 ^ (56 - 8 * k) % 256 := by
  simp [be8Byte, BitVec.extractLsb'_toNat, Nat.shiftRight_eq_div_pow]

/-- The slice R44 prints is 8 bits wide, so giving it the type of a byte drops nothing. -/
theorem be8Byte_eq_extractLsb (v : Code) {k : Nat} (hk : k < 8) :
    be8Byte v k = (v.extractLsb (63 - 8 * k) (56 - 8 * k)).setWidth 8 := by
  have hwidth : 63 - 8 * k - (56 - 8 * k) + 1 = 8 := by omega
  apply BitVec.eq_of_toNat_eq
  rw [BitVec.toNat_setWidth, BitVec.extractLsb_toNat, hwidth, be8Byte, BitVec.extractLsb'_toNat,
    Nat.mod_mod]

/-- The number that bytes spell, most significant first. -/
def bigEndianValue (bytes : List Byte) : Nat := bytes.foldl (fun n b => n * 256 + b.toNat) 0

theorem bigEndianValue_concat (bytes : List Byte) (b : Byte) :
    bigEndianValue (bytes ++ [b]) = bigEndianValue bytes * 256 + b.toNat := by
  simp [bigEndianValue]

/-- The first `n` bytes of `BE8(v)` spell the top `8n` bits of `v`. -/
theorem bigEndianValue_be8Bytes (v : Code) {n : Nat} (hn : n ≤ 8) :
    bigEndianValue ((List.range n).map (be8Byte v)) = v.toNat / 2 ^ (64 - 8 * n) := by
  induction n with
  | zero => exact (Nat.div_eq_of_lt v.isLt).symm
  | succ n ih =>
    have hbefore : 2 ^ (64 - 8 * n) = 2 ^ (56 - 8 * n) * 256 := by
      rw [show 64 - 8 * n = 56 - 8 * n + 8 by omega, Nat.pow_add]
    have hafter : 64 - 8 * (n + 1) = 56 - 8 * n := by omega
    rw [List.range_succ, List.map_append, List.map_singleton, bigEndianValue_concat, ih (by omega),
      toNat_be8Byte, hbefore, ← Nat.div_div_eq_div_mul, hafter, Nat.div_add_mod']

/-- Settles O44: the bytes are the slices R44 prints, and all 8 of them spell the whole code. -/
theorem exportedCodeIsBigEndian : Obligations.ExportedCodeIsBigEndian := by
  refine ⟨fun v => ⟨length_be8 v, fun k hk => ?_⟩, fun v => ?_, by decide⟩
  · rw [getElem?_be8 v hk, be8Byte_eq_extractLsb v hk]
  · calc bigEndianValue (be8 v)
      _ = v.toNat / 2 ^ 0 := bigEndianValue_be8Bytes v (Nat.le_refl 8)
      _ = v.toNat := Nat.div_one _

/-! ### `ROM_ENC` and `ROM_DEC` -/

theorem romEnc_eq_alphabet :
    romEnc = "0123456789bcdefghjkmnpqrstuvwxyz".toList.map (fun c => BitVec.ofNat 8 c.toNat) := by
  decide

theorem length_romEnc : romEnc.length = 32 := rfl

theorem length_romDec : romDec.length = 75 := rfl

theorem romEnc_nodup : romEnc.Nodup := by decide

theorem idxOf_romEnc_lt {b : Byte} (hb : b ∈ romEnc) : romEnc.idxOf b < 32 :=
  List.idxOf_lt_length_of_mem hb

/-- Place `d` of `ROM_ENC` holds `b` exactly when it is the one place where `b` stands. -/
theorem getElem?_romEnc_eq_some_iff {d : Nat} {b : Byte} :
    romEnc[d]? = some b ↔ b ∈ romEnc ∧ romEnc.idxOf b = d := by
  constructor
  · intro h
    obtain ⟨hd, rfl⟩ := List.getElem?_eq_some_iff.mp h
    exact ⟨List.getElem_mem hd, romEnc_nodup.idxOf_getElem d hd⟩
  · rintro ⟨hb, rfl⟩
    exact List.getElem?_idxOf hb

/-- What R42 says the entry of `ROM_DEC` for a byte is: the place of the byte in `ROM_ENC` when it
has one, and `INV` otherwise. -/
def decodeEntry (b : Byte) : Byte :=
  if b ∈ romEnc then BitVec.ofNat 8 (romEnc.idxOf b) else Config.decInv

theorem decodeEntry_of_mem {b : Byte} (hb : b ∈ romEnc) :
    decodeEntry b = BitVec.ofNat 8 (romEnc.idxOf b) := if_pos hb

theorem decodeEntry_of_not_mem {b : Byte} (hb : b ∉ romEnc) : decodeEntry b = Config.decInv :=
  if_neg hb

/-- The groups R42 prints are the table R42 describes. -/
theorem romDec_eq_map_decodeEntry :
    romDec = (List.range 75).map fun k => decodeEntry (BitVec.ofNat 8 (0x30 + k)) := by
  decide

theorem getElem?_romDec {k : Nat} (hk : k < 75) :
    romDec[k]? = some (decodeEntry (BitVec.ofNat 8 (0x30 + k))) := by
  simp [romDec_eq_map_decodeEntry, hk]

theorem ofNat_digit_ne_decInv {d : Nat} (hd : d < 32) : BitVec.ofNat 8 d ≠ Config.decInv := by
  bv_omega

theorem decodeEntry_eq_decInv_iff {b : Byte} : decodeEntry b = Config.decInv ↔ b ∉ romEnc := by
  refine ⟨fun h hb => ?_, decodeEntry_of_not_mem⟩
  rw [decodeEntry_of_mem hb] at h
  exact ofNat_digit_ne_decInv (idxOf_romEnc_lt hb) h

theorem decodeEntry_eq_digit_iff {d : Nat} (hd : d < 32) {b : Byte} :
    decodeEntry b = BitVec.ofNat 8 d ↔ romEnc[d]? = some b := by
  rw [getElem?_romEnc_eq_some_iff]
  constructor
  · intro h
    have hb : b ∈ romEnc := by
      by_contra hb
      exact ofNat_digit_ne_decInv hd (h.symm.trans (decodeEntry_of_not_mem hb))
    have hlt : romEnc.idxOf b < 32 := idxOf_romEnc_lt hb
    rw [decodeEntry_of_mem hb] at h
    exact ⟨hb, by bv_omega⟩
  · rintro ⟨hb, rfl⟩
    exact decodeEntry_of_mem hb

/-- Settles O45: entry `k` of `ROM_DEC` is `decodeEntry` of the byte `0x30 + k`. -/
theorem decodeTableInvertsEncodeTable : Obligations.DecodeTableInvertsEncodeTable := by
  refine ⟨romEnc_eq_alphabet, length_romEnc, length_romDec, fun k hk => ⟨fun d hd => ?_, ?_⟩⟩
  · rw [getElem?_romDec hk, Option.some_inj, decodeEntry_eq_digit_iff hd]
  · rw [getElem?_romDec hk, Option.some_inj, decodeEntry_eq_decInv_iff]

end Sys2Proof.Machine

/-! ### Proofs of the encoding family: decode, encode, and the opcode map -/

namespace Sys2Proof.Machine

/-! ### The three fields of a word -/

/-- A word is its three fields put together (R60). -/
theorem append_fields (w : CommandWord) : opField w ++ zField w ++ immField w = w := by
  have hhigh : opField w ++ zField w = w.extractLsb' 7 9 :=
    BitVec.extractLsb'_append_extractLsb'_eq_extractLsb' rfl
  have hall : w.extractLsb' 7 9 ++ immField w = w.extractLsb' 0 16 :=
    BitVec.extractLsb'_append_extractLsb'_eq_extractLsb' rfl
  rw [hhigh, hall, BitVec.extractLsb'_eq_self]

theorem commandWord_eq_iff {w v : CommandWord} :
    w = v ↔ opField w = opField v ∧ zField w = zField v ∧ immField w = immField v := by
  refine ⟨fun h => h ▸ ⟨rfl, rfl, rfl⟩, fun ⟨hop, hz, himm⟩ => ?_⟩
  rw [← append_fields w, hop, hz, himm, append_fields v]

/-- The word has the layout R61 and R62 give the command: its opcode, a zero, and its immediate or
zero. -/
def IsWordOf (w : CommandWord) (i : Instr) : Prop :=
  opField w = i.opcode ∧ zField w = 0#1 ∧ (immField w).toNat = i.immediate?.getD 0

theorem isWordOf_encode {i : Instr} (h : i.wellFormed = true) : IsWordOf (encode i) i :=
  Laws.WordFields.of_immediate h

theorem IsWordOf.wellFormed {w : CommandWord} {i : Instr} (h : IsWordOf w i) :
    i.wellFormed = true := by
  obtain ⟨-, -, himm⟩ := h
  unfold Instr.wellFormed
  cases hi : i.immediate? with
  | none => rfl
  | some imm =>
    have hlt : (immField w).toNat < 128 := (immField w).isLt
    rw [hi, Option.getD_some] at himm
    exact decide_eq_true (by omega)

/-- A command has one word. -/
theorem IsWordOf.unique {w v : CommandWord} {i : Instr} (hw : IsWordOf w i) (hv : IsWordOf v i) :
    w = v := by
  obtain ⟨hopw, hzw, himmw⟩ := hw
  obtain ⟨hopv, hzv, himmv⟩ := hv
  exact commandWord_eq_iff.2 ⟨hopw.trans hopv.symm, hzw.trans hzv.symm,
    BitVec.eq_of_toNat_eq (himmw.trans himmv.symm)⟩

/-! ### What decodes -/

theorem isWordOf_of_decodeFormatN {w : CommandWord} {i j : Instr}
    (h : decodeFormatN w j = .command i) (hop : opField w = j.opcode)
    (hj : j.immediate? = none) : IsWordOf w i := by
  unfold decodeFormatN at h
  split_ifs at h with hz himm
  obtain rfl := Decoded.command.inj h
  rw [not_not] at hz himm
  exact ⟨hop, hz, by rw [himm, hj]; rfl⟩

theorem isWordOf_of_decodeFormatI {w : CommandWord} {i : Instr} {f : Nat → Instr}
    (h : decodeFormatI w f = .command i) (hop : ∀ n, opField w = (f n).opcode)
    (hf : ∀ n, (f n).immediate? = some n) : IsWordOf w i := by
  unfold decodeFormatI at h
  split_ifs at h with hz
  obtain rfl := Decoded.command.inj h
  rw [not_not] at hz
  exact ⟨hop _, hz, by rw [hf]; rfl⟩

theorem isWordOf_of_decode {w : CommandWord} {i : Instr} (h : decode w = .command i) :
    IsWordOf w i := by
  unfold decode at h
  split at h
  -- the format I opcodes, the reserved ones, and the format N opcodes
  case h_9 hop | h_10 hop | h_13 hop | h_15 hop | h_16 hop | h_17 hop =>
    exact isWordOf_of_decodeFormatI h (fun _ => BitVec.eq_of_toNat_eq hop) (fun _ => rfl)
  case h_18 => cases h
  all_goals exact isWordOf_of_decodeFormatN h (BitVec.eq_of_toNat_eq ‹_›) rfl

theorem decode_of_isWordOf {w : CommandWord} {i : Instr} (h : IsWordOf w i) :
    decode w = .command i := by
  obtain ⟨hop, hz, himm⟩ := h
  cases i with
  | mdec imm | trunc imm | geohash imm | bits imm | prec imm | err imm =>
    have himm' : (immField w).toNat = imm := himm
    simp [decode, hop, Instr.opcode, decodeFormatI, hz, himm']
  | _ =>
    have himm' : immField w = 0#7 := BitVec.eq_of_toNat_eq himm
    simp [decode, hop, Instr.opcode, decodeFormatN, hz, himm']

/-- What the decoder accepts, and as what: a command's word, as that command. -/
theorem decode_eq_command_iff {w : CommandWord} {i : Instr} :
    decode w = .command i ↔ IsWordOf w i :=
  ⟨isWordOf_of_decode, decode_of_isWordOf⟩

/-- Settles O2: the word of a well-formed command has the command's layout. -/
theorem decodeOfEncodeIsTheCommand : Obligations.DecodeOfEncodeIsTheCommand :=
  fun _ hwf => decode_of_isWordOf (isWordOf_encode hwf)

/-- Settles O3: the word has the command's layout, so the command is well-formed, its encoding has
the same layout, and only one word has it. -/
theorem encodeOfDecodeIsTheWord : Obligations.EncodeOfDecodeIsTheWord := by
  intro w i h
  have hw : IsWordOf w i := isWordOf_of_decode h
  exact ⟨(isWordOf_encode hw.wellFormed).unique hw, hw.wellFormed⟩

/-! ### The opcode map -/

/-- The row R64 prints for a command: its opcode alone, under a mask that leaves the immediate of a
format I command out. -/
def rowOf (i : Instr) : OpcodeRow where
  mnemonic := i.mnemonic
  pattern := i.opcode ++ 0#1 ++ 0#7
  mask := if i.immediate? = none then 0xFFFF#16 else 0xFF80#16

/-- The commands in the order of the opcode map, those of format I with this immediate. -/
def commandsWith (imm : Nat) : List Instr :=
  [.nop, .qnt, .dqnt, .spread, .squash, .ilv, .dilv, .menc, .mdec imm, .trunc imm, .b32e, .b32d,
    .geohash imm, .locate, .bits imm, .prec imm, .err imm]

theorem opcodeTable_eq_map_rowOf (imm : Nat) : opcodeTable = (commandsWith imm).map rowOf := by
  simp [opcodeTable, commandsWith, rowOf, Instr.mnemonic, Instr.opcode, Instr.immediate?]

theorem mem_commandsWith_iff {imm : Nat} {i : Instr} :
    i ∈ commandsWith imm ↔ ∀ n, i.immediate? = some n → n = imm := by
  cases i <;> simp [commandsWith, Instr.immediate?]

theorem rowOf_mem_opcodeTable (i : Instr) : rowOf i ∈ opcodeTable := by
  rw [opcodeTable_eq_map_rowOf (i.immediate?.getD 0)]
  exact List.mem_map_of_mem (mem_commandsWith_iff.2 fun n hn => by simp [hn])

theorem selects_iff_fields {r : OpcodeRow} {w : CommandWord} :
    r.selects w = true ↔ opField w &&& opField r.mask = opField r.pattern ∧
      zField w &&& zField r.mask = zField r.pattern ∧
      immField w &&& immField r.mask = immField r.pattern := by
  rw [OpcodeRow.selects, beq_iff_eq, commandWord_eq_iff]
  simp only [opField, zField, immField, BitVec.extractLsb'_and]

theorem rowOf_mask_fields (i : Instr) :
    opField (rowOf i).mask = .allOnes 8 ∧ zField (rowOf i).mask = .allOnes 1 ∧
      immField (rowOf i).mask = if i.immediate? = none then .allOnes 7 else 0#7 := by
  simp only [rowOf]
  split_ifs <;> decide

/-- A word selects a command's row when it has the command's opcode, a zero in bit 7 and, for format
N, nothing in the other bits (R64). -/
theorem rowOf_selects_iff {i : Instr} {w : CommandWord} :
    (rowOf i).selects w = true ↔
      opField w = i.opcode ∧ zField w = 0#1 ∧ (i.immediate? = none → immField w = 0#7) := by
  obtain ⟨hop, hz, himm⟩ := Laws.WordFields.fields_append i.opcode 0#7
  obtain ⟨hmaskOp, hmaskZ, hmaskImm⟩ := rowOf_mask_fields i
  rw [selects_iff_fields, hmaskOp, hmaskZ, hmaskImm]
  simp only [rowOf, hop, hz, himm, BitVec.and_allOnes]
  split_ifs with hi
  · simp only [hi, BitVec.and_allOnes, forall_const]
  · simp [hi]

/-- The row a word selects is the row of the command it decodes to. -/
theorem selects_iff_decode {r : OpcodeRow} (hr : r ∈ opcodeTable) {w : CommandWord} :
    r.selects w = true ↔ ∃ i, decode w = .command i ∧ rowOf i = r := by
  constructor
  · intro h
    rw [opcodeTable_eq_map_rowOf (immField w).toNat] at hr
    obtain ⟨i, hi, rfl⟩ := List.mem_map.1 hr
    obtain ⟨hop, hz, himm⟩ := rowOf_selects_iff.1 h
    refine ⟨i, decode_of_isWordOf ⟨hop, hz, ?_⟩, rfl⟩
    cases hcases : i.immediate? with
    | none => rw [himm hcases]; rfl
    | some n => exact (mem_commandsWith_iff.1 hi n hcases).symm
  · rintro ⟨i, hdecode, rfl⟩
    obtain ⟨hop, hz, himm⟩ := isWordOf_of_decode hdecode
    refine rowOf_selects_iff.2 ⟨hop, hz, fun hnone => BitVec.eq_of_toNat_eq ?_⟩
    rw [himm, hnone]
    rfl

/-- A row a word selects is the row of any command the word decodes to. -/
theorem rowOf_eq_of_selects {r : OpcodeRow} (hr : r ∈ opcodeTable) {w : CommandWord} {i : Instr}
    (hsel : r.selects w = true) (h : decode w = .command i) : rowOf i = r := by
  obtain ⟨j, hj, hrow⟩ := (selects_iff_decode hr).1 hsel
  obtain rfl := Decoded.command.inj (h.symm.trans hj)
  exact hrow

/-- Settles O4: the row a word selects is the row of the command it decodes to, and a word
decodes to one command at most. -/
theorem decodeFollowsTheOpcodeMap : Obligations.DecodeFollowsTheOpcodeMap := by
  refine ⟨fun w r r' hr hr' hsel hsel' => ?_, fun w => ⟨?_, ?_⟩, fun w i r h hr hsel => ?_⟩
  · obtain ⟨i, hi, hrow⟩ := (selects_iff_decode hr).1 hsel
    exact hrow.symm.trans (rowOf_eq_of_selects hr' hsel' hi)
  · rintro ⟨i, hi⟩
    have hmem : rowOf i ∈ opcodeTable := rowOf_mem_opcodeTable i
    exact ⟨rowOf i, hmem, (selects_iff_decode hmem).2 ⟨i, hi, rfl⟩⟩
  · rintro ⟨r, hr, hsel⟩
    obtain ⟨i, hi, -⟩ := (selects_iff_decode hr).1 hsel
    exact ⟨i, hi⟩
  · rw [← rowOf_eq_of_selects hr hsel h]
    rfl

/-! ### Format I words, and NOP -/

/-- The word put together from a command's opcode, a zero and its immediate decodes to it. -/
theorem decode_append {i : Instr} {imm : BitVec 7} (h : imm.toNat = i.immediate?.getD 0) :
    decode (i.opcode ++ 0#1 ++ imm) = .command i := by
  obtain ⟨hop, hz, himm⟩ := Laws.WordFields.fields_append i.opcode imm
  exact decode_of_isWordOf ⟨hop, hz, by rw [himm, h]⟩

/-- GEOHASH refuses a count outside 5 to 60 (R161). -/
theorem exec_geohash_of_refused {imm : Nat} (h : imm < Config.ghMin ∨ imm > Config.ghMax)
    (s : State) : exec (.geohash imm) s = .next (s.setFC .invalidBitCount) :=
  if_pos h

/-- Settles O5: the word of each opcode and immediate has the command's layout, and `GEOHASH 3` is a
command whose operation refuses its count. -/
theorem formatIWordIsACommandForEveryImmediate :
    Obligations.FormatIWordIsACommandForEveryImmediate := by
  refine ⟨fun imm => ⟨decode_append (i := .mdec imm.toNat) rfl,
    decode_append (i := .trunc imm.toNat) rfl, decode_append (i := .geohash imm.toNat) rfl,
    decode_append (i := .bits imm.toNat) rfl, decode_append (i := .prec imm.toNat) rfl,
    decode_append (i := .err imm.toNat) rfl⟩, fun s => ?_⟩
  have hdecode : decode 0x0C03#16 = .command (.geohash 3) :=
    decode_append (i := .geohash 3) (imm := 3#7) rfl
  exact ⟨_, (issue_of_command hdecode s).trans (exec_geohash_of_refused (.inl (by decide)) s),
    State.fc_setFC .invalidBitCount s⟩

theorem succeeded_setFC_ok (s : State) : succeeded s (s.setFC .ok) :=
  ⟨State.fc_setFC .ok s, State.statusReserved_setFC .ok s⟩

/-- Settles O24: NOP commits the state as it is. -/
theorem nopOnlyClearsTheStatusCode : Obligations.NopOnlyClearsTheStatusCode :=
  fun s => ⟨s.setFC .ok, rfl, rfl, succeeded_setFC_ok s⟩

end Sys2Proof.Machine

/-! ### Proofs of the quantiser family: what QNT and DQNT write, where and how well they quantise -/

namespace Sys2Proof.Machine

/-! ### Patterns and the numbers they hold -/

theorem realUnits?_eq_some_iff {v : Code} {k : Int} :
    realUnits? v = some k ↔ ∃ neg m, fpOfBits v = .fin neg m ∧ signedUnits neg m = k := by
  unfold realUnits?
  split <;> simp_all

/-- A pattern is its sign, exponent and fraction put together. -/
theorem code_eq_of_fields {p q : Code} (hs : p.getLsbD 63 = q.getLsbD 63)
    (he : p.extractLsb' 52 11 = q.extractLsb' 52 11)
    (hf : p.extractLsb' 0 52 = q.extractLsb' 0 52) : p = q := by
  apply BitVec.eq_of_getLsbD_eq
  intro i hi
  rcases lt_trichotomy i 63 with hlt | rfl | hgt
  · by_cases hi52 : i < 52
    · simpa [hi52] using congrArg (·.getLsbD i) hf
    · have := congrArg (·.getLsbD (i - 52)) he
      simpa [show i - 52 < 11 by omega, show 52 + (i - 52) = i by omega] using this
  · exact hs
  · omega

/-- What the fields of a finite pattern say of its magnitude: it is in the binade of the exponent,
and the fraction counts its place there. -/
theorem fields_of_fpOfBits_eq_fin {p : Code} {neg : Bool} {m : Nat} (h : fpOfBits p = .fin neg m) :
    p.getLsbD 63 = neg ∧
    ((p.extractLsb' 52 11).toNat = 0 ∧ m = (p.extractLsb' 0 52).toNat ∨
      ∃ e, (p.extractLsb' 52 11).toNat = e + 1 ∧
        m = (2 ^ 52 + (p.extractLsb' 0 52).toNat) * 2 ^ e) := by
  unfold fpOfBits at h
  simp only at h
  split_ifs at h with hmax hfrac hzero
  · obtain ⟨hneg, hm⟩ := Fp.fin.inj h
    exact ⟨hneg, .inl ⟨hzero, hm.symm⟩⟩
  · obtain ⟨hneg, hm⟩ := Fp.fin.inj h
    exact ⟨hneg, .inr ⟨_, (Nat.succ_pred hzero).symm, hm.symm⟩⟩

/-- A larger exponent makes a larger number, whatever the fractions. -/
theorem significand_lt_of_exponent_lt {f e e' : Nat} (hf : f < 2 ^ 52) (he : e < e') (f' : Nat) :
    (2 ^ 52 + f) * 2 ^ e < (2 ^ 52 + f') * 2 ^ e' := by
  calc (2 ^ 52 + f) * 2 ^ e < 2 ^ 53 * 2 ^ e := Nat.mul_lt_mul_of_pos_right (by omega) (by positivity)
    _ = 2 ^ 52 * 2 ^ (e + 1) := by ring
    _ ≤ (2 ^ 52 + f') * 2 ^ e' :=
      Nat.mul_le_mul (Nat.le_add_right _ _) (Nat.pow_le_pow_right (by decide) he)

/-- A finite datum has one pattern: magnitudes of different exponents lie in different binades. -/
theorem fpOfBits_fin_inj {p q : Code} {neg : Bool} {m : Nat} (hp : fpOfBits p = .fin neg m)
    (hq : fpOfBits q = .fin neg m) : p = q := by
  obtain ⟨hps, hpm⟩ := fields_of_fpOfBits_eq_fin hp
  obtain ⟨hqs, hqm⟩ := fields_of_fpOfBits_eq_fin hq
  have hpf := (p.extractLsb' 0 52).isLt
  have hqf := (q.extractLsb' 0 52).isLt
  suffices h : (p.extractLsb' 52 11).toNat = (q.extractLsb' 52 11).toNat ∧
      (p.extractLsb' 0 52).toNat = (q.extractLsb' 0 52).toNat from
    code_eq_of_fields (hps.trans hqs.symm) (BitVec.eq_of_toNat_eq h.1) (BitVec.eq_of_toNat_eq h.2)
  obtain ⟨hpe, rfl⟩ | ⟨e, hpe, rfl⟩ := hpm <;> obtain ⟨hqe, hm⟩ | ⟨e', hqe, hm⟩ := hqm
  · exact ⟨hpe.trans hqe.symm, hm⟩
  · have : 2 ^ 52 * 2 ^ 0 ≤ (2 ^ 52 + (q.extractLsb' 0 52).toNat) * 2 ^ e' :=
      Nat.mul_le_mul (Nat.le_add_right _ _) (Nat.pow_le_pow_right (by decide) e'.zero_le)
    omega
  · have : 2 ^ 52 * 2 ^ 0 ≤ (2 ^ 52 + (p.extractLsb' 0 52).toNat) * 2 ^ e :=
      Nat.mul_le_mul (Nat.le_add_right _ _) (Nat.pow_le_pow_right (by decide) e.zero_le)
    omega
  · rcases lt_trichotomy e e' with hlt | rfl | hgt
    · exact absurd hm (significand_lt_of_exponent_lt hpf hlt _).ne
    · exact ⟨hpe.trans hqe.symm, Nat.add_left_cancel (Nat.mul_right_cancel (by positivity) hm)⟩
    · exact absurd hm (significand_lt_of_exponent_lt hqf hgt _).ne'

/-- A number other than zero has one pattern. -/
theorem realUnits?_inj_of_pos {p q : Code} {k : Int} (hk : 0 < k) (hp : realUnits? p = some k)
    (hq : realUnits? q = some k) : p = q := by
  have hpos : ∀ {v : Code}, realUnits? v = some k → fpOfBits v = .fin false k.toNat := by
    intro v hv
    obtain ⟨neg, m, hfin, hm⟩ := realUnits?_eq_some_iff.1 hv
    cases neg with
    | false => rw [hfin, ← hm, signedUnits_false, Int.toNat_natCast]
    | true => rw [signedUnits_true] at hm; omega
  exact fpOfBits_fin_inj (hpos hp) (hpos hq)

/-! ### Rounding: how near, and to what -/

theorem two_mul_distanceTimes_divNearestEven_le {den : Nat} (hd : 0 < den) (num : Nat) :
    2 * distanceTimes (divNearestEven num den) num den ≤ den := by
  have hmod : num % den < den := Nat.mod_lt num hd
  obtain ⟨⟨hval, hhalf⟩ | ⟨hval, hhalf⟩, -⟩ := divNearestEven_cases num den
  · rw [hval, distanceTimes_floor]
    exact hhalf
  · rw [hval, distanceTimes_floor_succ hd]
    omega

/-- Below `2^(53 + e)` units a rounding is at most half of `2^e` units away. -/
theorem two_mul_distanceTimes_roundUnits_le {num den e : Nat} (hd : 0 < den)
    (h : num < 2 ^ (53 + e) * den) :
    2 * distanceTimes (roundUnits num den) num den ≤ den * 2 ^ e := by
  have hspacing : fpSpacing (num / den) ≤ 2 ^ e := by
    have hlog : (num / den).log2 < 53 + e :=
      by
      rw [Nat.log2_eq_log_two]
      exact Nat.log_lt_of_lt_pow' (by omega) ((Nat.div_lt_iff_lt_mul hd).2 h)
    exact Nat.pow_le_pow_right (by decide) (by omega)
  rw [roundUnits, distanceTimes_mul]
  exact (two_mul_distanceTimes_divNearestEven_le (Nat.mul_pos hd (fpSpacing_pos _)) num).trans
    (Nat.mul_le_mul_left _ hspacing)

/-- A representable magnitude of at least `2^(52 + e)` is a multiple of `2^e`. -/
theorem two_pow_dvd_of_fpRepresentable {m e : Nat} (hm : fpRepresentable m) (h : 2 ^ (52 + e) ≤ m) :
    2 ^ e ∣ m := by
  obtain ⟨c, e', hc, rfl⟩ := hm
  have he : 2 ^ (52 + e) < 2 ^ (53 + e') := by
    rw [pow_add 2 53]
    exact h.trans_lt (Nat.mul_lt_mul_of_pos_right hc (by positivity))
  have := (Nat.pow_lt_pow_iff_right (by decide)).1 he
  exact Dvd.dvd.mul_left (pow_dvd_pow 2 (by omega)) c

/-! ### A datum of at least a given magnitude -/

/-- The datum has this sign and at least this magnitude, infinity included. -/
def Fp.AtLeast (neg : Bool) (b : Nat) (f : Fp) : Prop :=
  f = .inf neg ∨ ∃ m, f = .fin neg m ∧ b ≤ m

theorem atLeast_fpRound {neg : Bool} {b num den : Nat} (hd : 0 < den) (hb : fpRepresentable b)
    (h : b * den ≤ num) : (fpRound neg num den).AtLeast neg b :=
  fpRound_ge hd hb h

theorem Fp.AtLeast.div_units {neg : Bool} {b s : Nat} {f : Fp} (hs : 0 < s) (hb : fpRepresentable b)
    (hf : f.AtLeast neg (b * s)) : (fdiv f (.fin false (s * fpOne))).AtLeast neg b := by
  obtain rfl | ⟨m, rfl, hm⟩ := hf
  · exact .inl (by simp [fdiv])
  · have hsf : 0 < s * fpOne := Nat.mul_pos hs fpOne_pos
    have hround : fdiv (.fin neg m) (.fin false (s * fpOne)) =
        fpRound neg (m * fpOne) (s * fpOne) := by simp [fdiv, hsf.ne']
    rw [hround]
    refine atLeast_fpRound hsf hb ?_
    rw [← mul_assoc]
    exact Nat.mul_le_mul_right _ hm

theorem Fp.AtLeast.mul_units {neg : Bool} {b n : Nat} {f : Fp} (hn : 0 < n)
    (hb : fpRepresentable (b * n)) (hf : f.AtLeast neg b) :
    (fmul f (.fin false (n * fpOne))).AtLeast neg (b * n) := by
  have hnf : 0 < n * fpOne := Nat.mul_pos hn fpOne_pos
  obtain rfl | ⟨m, rfl, hm⟩ := hf
  · exact .inl (by simp [fmul, hnf.ne'])
  · have hround : fmul (.fin neg m) (.fin false (n * fpOne)) =
        fpRound neg (m * (n * fpOne)) fpOne := by simp [fmul]
    rw [hround]
    refine atLeast_fpRound fpOne_pos hb ?_
    rw [← mul_assoc]
    exact Nat.mul_le_mul_right _ (Nat.mul_le_mul_right _ hm)

/-! ### Narrowing -/

theorem narrow32?_fin_false_eq_some_iff {m : Nat} {q : Fixed} :
    narrow32? (.fin false m) = some q ↔ m / fpOne = q.toNat := by
  rw [narrow32?_fin_false]
  have hq := q.isLt
  split_ifs with h
  · rw [Option.some_inj, ← BitVec.toNat_inj, BitVec.toNat_ofNat, Nat.mod_eq_of_lt h]
  · exact iff_of_false (by simp) (by omega)

theorem narrow32?_fin_false_eq_none_iff {m : Nat} :
    narrow32? (.fin false m) = none ↔ 2 ^ 32 * fpOne ≤ m := by
  rw [narrow32?_fin_false, ← Nat.le_div_iff_mul_le fpOne_pos]
  split_ifs with h
  · exact iff_of_false (by simp) (by omega)
  · exact iff_of_true rfl (by omega)

theorem narrow32?_eq_none_of_atLeast_two32 {f : Fp} (h : f.AtLeast false (fpOne * 2 ^ 32)) :
    narrow32? f = none := by
  obtain rfl | ⟨m, rfl, hm⟩ := h
  · rfl
  · exact narrow32?_fin_false_eq_none_iff.2 (by rwa [Nat.mul_comm])

/-- `-1` and everything below it is out of range. -/
theorem narrow32?_eq_none_of_atLeast_one {f : Fp} (h : f.AtLeast true fpOne) :
    narrow32? f = none := by
  obtain rfl | ⟨m, rfl, hm⟩ := h
  · rfl
  · rw [narrow32?_fin_true, if_neg hm.not_gt]

/-! ### The two axes -/

/-- The two constants of a coordinate (R80, R81): the offset pattern holds `o` degrees and the span
pattern twice that, `s`. -/
structure IsAxis (off span : Code) (o s : Nat) : Prop where
  off_units : fpOfBits off = .fin false (o * fpOne)
  span_units : fpOfBits span = .fin false (s * fpOne)
  span_eq : s = 2 * o
  offset_gt : 64 < o
  span_lt : s < 512

theorem isAxis_latitude : IsAxis pattern90 pattern180 90 180 :=
  ⟨fpOfBits_pattern90, fpOfBits_pattern180, rfl, by decide, by decide⟩

theorem isAxis_longitude : IsAxis pattern180 pattern360 180 360 :=
  ⟨fpOfBits_pattern180, fpOfBits_pattern360, rfl, by decide, by decide⟩

section Axis

variable {off span v : Code} {o s x : Nat} {k : Int}

theorem IsAxis.span_pos (h : IsAxis off span o s) : 0 < s := by
  have := h.span_eq
  have := h.offset_gt
  omega

/-- A number at or above the lower end is a whole count `x` of units above it. -/
theorem exists_units_above_lower_end (hlo : -o * (fpOne : Int) ≤ k) :
    ∃ x : Nat, (x : Int) = k + o * fpOne :=
  ⟨_, Int.toNat_of_nonneg (by linarith)⟩

/-- A number at or below the upper end is at most the span above the lower end. -/
theorem IsAxis.units_le_span (h : IsAxis off span o s) (hx : (x : Int) = k + o * fpOne)
    (hhi : k ≤ o * fpOne) : x ≤ s * fpOne := by
  have hspan : (s : Int) = 2 * o := by exact_mod_cast h.span_eq
  zify
  rw [hx, hspan]
  linarith

/-- In the domain, ends included, the scaled value is finite and not negative, and the sum is at most
the span. -/
theorem IsAxis.quantScaled_eq (h : IsAxis off span o s) (hk : realUnits? v = some k)
    (hx : (x : Int) = k + o * fpOne) (hmax : x ≤ s * fpOne) :
    quantScaled v off span = .fin false (scaledUnits k o s) ∧ sumUnits k o ≤ s * fpOne := by
  have hs512 := h.span_lt
  have hspan : (s : Int) = 2 * o := by exact_mod_cast h.span_eq
  have hmax' : k + o * fpOne ≤ 2 * o * fpOne := by
    rw [← hx, ← hspan]
    exact_mod_cast hmax
  obtain ⟨hscaled, hsum, -⟩ := quantScaled_in_domain h.off_units h.span_units h.span_eq h.span_pos
    (by omega) hk (by linarith [Int.natCast_nonneg x]) (by linarith)
  exact ⟨hscaled, hsum⟩

theorem IsAxis.quant?_eq (h : IsAxis off span o s) (hk : realUnits? v = some k)
    (hx : (x : Int) = k + o * fpOne) (hmax : x ≤ s * fpOne) :
    quant? v off span = narrow32? (.fin false (scaledUnits k o s)) := by
  rw [quant?, (h.quantScaled_eq hk hx hmax).1]

/-- From the upper end up every stage is at least what it is at the end, so the scaled value is at
least `2^32`. -/
theorem IsAxis.quant?_eq_none_of_ge (h : IsAxis off span o s) (hk : realUnits? v = some k)
    (hhi : o * fpOne ≤ k) : quant? v off span = none := by
  have hspan : (s : Int) = 2 * o := by exact_mod_cast h.span_eq
  have hs0 := h.span_pos
  have hs512 := h.span_lt
  have hone : 0 < fpOne := fpOne_pos
  obtain ⟨neg, m, hv, hm⟩ := realUnits?_eq_some_iff.1 hk
  have hge : ((fpOne * s : Nat) : Int) ≤ k + o * fpOne := by
    push_cast
    rw [hspan]
    linarith
  have hpos : 0 < k + o * fpOne := lt_of_lt_of_le (by positivity) hge
  have hadd : fadd (fpOfBits v) (fpOfBits off) = fpRound false (k + o * fpOne).natAbs 1 := by
    rw [hv, h.off_units]
    simp [fadd, hm, hpos.ne', hpos.not_gt]
  have hrep : ∀ c, c < 2 ^ 53 → fpRepresentable (fpOne * c) := fun c hc =>
    ⟨c, 1074, hc, by rw [fpOne_eq, Nat.mul_comm]⟩
  have hsum : (fadd (fpOfBits v) (fpOfBits off)).AtLeast false (fpOne * s) := by
    rw [hadd]
    exact atLeast_fpRound (by decide) (hrep s (by omega)) (by omega)
  have hone' : fpRepresentable fpOne := by simpa using hrep 1 (by decide)
  have hscaled := (hsum.div_units hs0 hone').mul_units (n := 2 ^ 32) (by decide) (hrep _ (by decide))
  rw [← h.span_units, ← fpOfBits_patternTwo32] at hscaled
  exact narrow32?_eq_none_of_atLeast_two32 hscaled

/-- A NaN or an infinity stays one through the three operations. -/
theorem IsAxis.quant?_eq_none_of_not_finite (h : IsAxis off span o s) (hv : realUnits? v = none) :
    quant? v off span = none := by
  have hspan : s * fpOne ≠ 0 := (Nat.mul_pos h.span_pos fpOne_pos).ne'
  have hone : fpOne ≠ 0 := fpOne_pos.ne'
  unfold realUnits? at hv
  rw [quant?, quantScaled, h.off_units, h.span_units, fpOfBits_patternTwo32]
  cases hbits : fpOfBits v with
  | nan => rfl
  | inf neg => simp [fadd, fdiv, fmul, hone, narrow32?]
  | fin neg m => simp [hbits] at hv

/-! ### On which side of a whole step the result lies -/

theorem IsAxis.lt_upper_of_quant?_eq_some (h : IsAxis off span o s) {q : Fixed}
    (hk : realUnits? v = some k) (hq : quant? v off span = some q) : k < o * fpOne := by
  by_contra hge
  rw [h.quant?_eq_none_of_ge hk (not_lt.1 hge)] at hq
  cases hq

/-- The scaled value keeps its side of every whole step `n`. -/
theorem IsAxis.scaledUnits_sides (h : IsAxis off span o s) (hx : (x : Int) = k + o * fpOne) {n : Nat}
    (hn : n ≤ 2 ^ 32) :
    (n * (s * fpOne) ≤ x * 2 ^ 32 → n * fpOne ≤ scaledUnits k o s) ∧
    (x * 2 ^ 32 ≤ n * (s * fpOne) → scaledUnits k o s ≤ n * fpOne) := by
  have hs512 := h.span_lt
  have hsides := Machine.scaledUnits_sides (k := k) (o := o) h.span_pos (by omega) hn
  rwa [← hx, Int.toNat_natCast, mul_assoc] at hsides

/-- The result lies between the floor and the ceiling of the exact scaled value (R87): if it were a
whole step off, the step itself would separate the two, and rounding keeps sides. -/
theorem IsAxis.quant?_between (h : IsAxis off span o s) {q : Fixed} (hk : realUnits? v = some k)
    (hlo : -o * (fpOne : Int) ≤ k) (hq : quant? v off span = some q) :
    (k + o * fpOne) * 2 ^ 32 < (q.toNat + 1) * (s * fpOne) ∧
    (q.toNat - 1) * (s * (fpOne : Int)) < (k + o * fpOne) * 2 ^ 32 := by
  have hone : 0 < fpOne := fpOne_pos
  have hq32 : q.toNat < 2 ^ 32 := q.isLt
  obtain ⟨x, hx⟩ := exists_units_above_lower_end hlo
  rw [h.quant?_eq hk hx (h.units_le_span hx (h.lt_upper_of_quant?_eq_some hk hq).le),
    narrow32?_fin_false_eq_some_iff] at hq
  rw [← hx]
  constructor
  · have hupper : scaledUnits k o s < (q.toNat + 1) * fpOne :=
      (Nat.div_lt_iff_lt_mul hone).1 (hq ▸ Nat.lt_succ_self _)
    have hstep := mt (h.scaledUnits_sides hx (n := q.toNat + 1) hq32).1 hupper.not_ge
    exact_mod_cast not_le.1 hstep
  · have hlower : q.toNat * fpOne ≤ scaledUnits k o s := (Nat.le_div_iff_mul_le hone).1 hq.ge
    cases hn : q.toNat with
    | zero =>
      have hspan : (0 : Int) < s * fpOne := by exact_mod_cast Nat.mul_pos h.span_pos hone
      push_cast
      linarith [Int.natCast_nonneg x]
    | succ n =>
      rw [hn, Nat.succ_mul] at hlower
      have hstep := mt (h.scaledUnits_sides hx (n := n) (by omega)).2 (by omega)
      rw [Nat.cast_succ, add_sub_cancel_right]
      exact_mod_cast not_le.1 hstep

/-- An exact whole step is quantised to itself. -/
theorem IsAxis.quant?_of_exact_step (h : IsAxis off span o s) {q : Fixed}
    (hk : realUnits? v = some k) (hstep : k * 2 ^ 32 = (q.toNat * s - o * 2 ^ 32) * fpOne) :
    quant? v off span = some q := by
  have hsum : (k + o * fpOne) * 2 ^ 32 = ((q.toNat * (s * fpOne) : Nat) : Int) := by
    push_cast
    linarith
  obtain ⟨x, hx⟩ := exists_units_above_lower_end (k := k) (o := o)
    (by linarith [Int.natCast_nonneg (q.toNat * (s * fpOne))])
  have hexact : x * 2 ^ 32 = q.toNat * (s * fpOne) := by
    rw [← hx] at hsum
    exact_mod_cast hsum
  have hmax : x ≤ s * fpOne := by
    refine Nat.le_of_mul_le_mul_right ?_ (show 0 < 2 ^ 32 by decide)
    rw [hexact, Nat.mul_comm _ (2 ^ 32)]
    exact Nat.mul_le_mul_right _ q.isLt.le
  obtain ⟨hge, hle⟩ := h.scaledUnits_sides hx q.isLt.le
  have hscaled : scaledUnits k o s = q.toNat * fpOne := le_antisymm (hle hexact.le) (hge hexact.ge)
  rw [h.quant?_eq hk hx hmax, narrow32?_fin_false_eq_some_iff, hscaled,
    Nat.mul_div_cancel _ fpOne_pos]

/-! ### The accuracy inside the domain -/

theorem abs_mul_sub_mul_right {a b c : Int} (hc : 0 ≤ c) : |a * c - b * c| = |a - b| * c := by
  rw [← sub_mul, abs_mul, abs_of_nonneg hc]

/-- The product by `2^32` is exact. -/
theorem scaledUnits_eq_quotientUnits_mul (hs : 0 < s) :
    scaledUnits k o s = quotientUnits k o s * 2 ^ 32 := by
  obtain ⟨c, e, hc, hq⟩ : fpRepresentable (quotientUnits k o s) :=
    fpRepresentable_roundUnits (Nat.mul_pos hs fpOne_pos) _
  have hrep : fpRepresentable (quotientUnits k o s * 2 ^ 32) :=
    ⟨c, e + 32, hc, by rw [hq, pow_add, mul_assoc]⟩
  rw [scaledUnits, ← mul_assoc, roundUnits_exact fpOne_pos hrep]

/-- The sum is rounded by at most half of `2^-44` degrees. -/
theorem IsAxis.sumUnits_near (h : IsAxis off span o s) (hx : (x : Int) = k + o * fpOne)
    (hmax : x ≤ s * fpOne) : 2 * |(sumUnits k o : Int) - x| ≤ 2 ^ 1030 := by
  have hlt : x < 2 ^ (53 + 1030) * 1 := by
    calc x ≤ s * fpOne := hmax
      _ < 512 * fpOne := Nat.mul_lt_mul_of_pos_right h.span_lt fpOne_pos
      _ = 2 ^ (53 + 1030) * 1 := by rw [fpOne_eq, show 512 = 2 ^ 9 by rfl, ← pow_add, mul_one]
  have hnear := two_mul_distanceTimes_roundUnits_le (by decide) hlt
  rw [sumUnits, ← hx, Int.toNat_natCast]
  simp only [distanceTimes, mul_one, one_mul] at hnear
  zify at hnear
  exact hnear

/-- The quotient is rounded by at most half of `2^-52`. -/
theorem quotientUnits_near (hs : 0 < s) (hsum : sumUnits k o ≤ s * fpOne) :
    2 * |(quotientUnits k o s : Int) * s - sumUnits k o| ≤ s * 2 ^ 1022 := by
  have hlt : sumUnits k o * fpOne < 2 ^ (53 + 1022) * (s * fpOne) := by
    calc sumUnits k o * fpOne ≤ s * fpOne * fpOne := Nat.mul_le_mul_right _ hsum
      _ = fpOne * (s * fpOne) := Nat.mul_comm _ _
      _ < 2 ^ (53 + 1022) * (s * fpOne) := by
        refine Nat.mul_lt_mul_of_pos_right ?_ (Nat.mul_pos hs fpOne_pos)
        rw [fpOne_eq]
        exact pow_lt_pow_right₀ one_lt_two (by decide)
  have hnear := two_mul_distanceTimes_roundUnits_le (Nat.mul_pos hs fpOne_pos) hlt
  have hone : (0 : Int) < fpOne := by exact_mod_cast fpOne_pos
  rw [distanceTimes] at hnear
  zify at hnear
  refine le_of_mul_le_mul_right ?_ hone
  calc 2 * |(quotientUnits k o s : Int) * s - sumUnits k o| * (fpOne : Int)
    _ = 2 * |(quotientUnits k o s : Int) * (s * fpOne) - sumUnits k o * fpOne| := by
      rw [mul_assoc, ← abs_mul_sub_mul_right hone.le, mul_assoc]
    _ ≤ s * fpOne * 2 ^ 1022 := hnear
    _ = s * 2 ^ 1022 * fpOne := mul_right_comm _ _ _

/-- The scaled value differs from the exact one by less than `2^-19` (R87): the two roundings before
the exact product are together less than `2^-51` of the span. -/
theorem IsAxis.scaledUnits_near (h : IsAxis off span o s) (hx : (x : Int) = k + o * fpOne)
    (hmax : x ≤ s * fpOne) (hsum : sumUnits k o ≤ s * fpOne) :
    |(scaledUnits k o s : Int) * s - (k + o * fpOne) * 2 ^ 32| * 2 ^ 19 < s * (fpOne : Int) := by
  have hs128 : (128 : Int) < s := by
    have := h.span_eq
    have := h.offset_gt
    omega
  have hsumNear := h.sumUnits_near hx hmax
  have hquotNear := quotientUnits_near h.span_pos hsum
  rw [scaledUnits_eq_quotientUnits_mul h.span_pos, ← hx, Nat.cast_mul, Nat.cast_pow,
    Nat.cast_ofNat]
  generalize (quotientUnits k o s : Int) = b at *
  generalize (sumUnits k o : Int) = a at *
  obtain ⟨u, hu0, hu1022, hu1030, hone⟩ : ∃ u : Int, 0 < u ∧ (2 : Int) ^ 1022 = u ∧
      (2 : Int) ^ 1030 = u * 2 ^ 8 ∧ (fpOne : Int) = u * 2 ^ 52 :=
    ⟨2 ^ 1022, by positivity, rfl, by rw [← pow_add], by
      rw [fpOne_eq, ← pow_add, Nat.cast_pow, Nat.cast_ofNat]⟩
  rw [hu1022] at hquotNear
  rw [hu1030] at hsumNear
  rw [hone]
  have hsplit : |b * 2 ^ 32 * s - x * 2 ^ 32| ≤ (|b * s - a| + |a - x|) * 2 ^ 32 := by
    rw [mul_right_comm, abs_mul_sub_mul_right (by decide)]
    exact Int.mul_le_mul_of_nonneg_right (abs_sub_le _ _ _) (by decide)
  have hsu : 128 * u < s * u := Int.mul_lt_mul_of_pos_right hs128 hu0
  linarith only [hsplit, hsumNear, hquotNear, hsu, hu0]

theorem IsAxis.quantScaled_near (h : IsAxis off span o s) (hk : realUnits? v = some k)
    (hlo : -o * (fpOne : Int) ≤ k) (hhi : k < o * fpOne) :
    ∃ m : Nat, quantScaled v off span = .fin false m ∧
      |(m : Int) * s - (k + o * fpOne) * 2 ^ 32| * 2 ^ 19 < s * (fpOne : Int) := by
  obtain ⟨x, hx⟩ := exists_units_above_lower_end hlo
  have hmax := h.units_le_span hx hhi.le
  obtain ⟨hscaled, hsum⟩ := h.quantScaled_eq hk hx hmax
  exact ⟨_, hscaled, h.scaledUnits_near hx hmax hsum⟩

/-! ### The one input of the domain that is out of range -/

/-- Two spacings or more below the upper end every stage stays below what it is at the end: the sum
by one of its spacings, the quotient and the product by one of theirs. -/
theorem IsAxis.scaledUnits_lt (h : IsAxis off span o s) {t : Nat} (hst : s < 2 ^ (t + 2))
    (ht : t ≤ 50) (hx : (x : Int) = k + o * fpOne)
    (hle : x + 2 ^ (1023 + t) ≤ s * fpOne) : scaledUnits k o s < 2 ^ 32 * fpOne := by
  have hs0 := h.span_pos
  obtain ⟨u, hu0, hu, hone⟩ : ∃ u, 0 < u ∧ u = 2 ^ 1021 ∧ fpOne = u * 2 ^ 53 :=
    ⟨2 ^ 1021, by positivity, rfl, by rw [fpOne_eq, ← pow_add]⟩
  have hspacing : 2 ^ (1023 + t) = 2 ^ (t + 2) * u := by
    rw [hu, ← pow_add]
    congr 1
    omega
  have hsplit : 2 ^ (51 - t) * 2 ^ (t + 2) = 2 ^ 53 := by
    rw [← pow_add]
    congr 1
    omega
  have hspan53 : s * 2 ^ (51 - t) < 2 ^ 53 := by
    rw [← hsplit, Nat.mul_comm]
    exact Nat.mul_lt_mul_of_pos_left hst (by positivity)
  obtain ⟨c, hc⟩ : ∃ c, s * 2 ^ (51 - t) = c + 1 :=
    Nat.exists_eq_succ_of_ne_zero (Nat.mul_pos hs0 (by positivity)).ne'
  have hcs : c * 2 ^ (t + 2) + 2 ^ (t + 2) = s * 2 ^ 53 := by
    rw [← Nat.succ_mul, Nat.succ_eq_add_one, ← hc, mul_assoc, hsplit]
  have hsum : sumUnits k o ≤ c * 2 ^ (1023 + t) := by
    rw [sumUnits, ← hx, Int.toNat_natCast]
    refine roundUnits_le (by decide) ⟨c, _, by omega, rfl⟩ ?_
    have : s * fpOne = c * 2 ^ (1023 + t) + 2 ^ (1023 + t) := by
      calc s * fpOne = s * 2 ^ 53 * u := by rw [hone]; ring
        _ = _ := by rw [← hcs, hspacing]; ring
    omega
  have hquot : quotientUnits k o s ≤ (2 ^ 53 - 1) * u := by
    refine roundUnits_le (Nat.mul_pos hs0 fpOne_pos) ⟨2 ^ 53 - 1, 1021, by decide, by rw [hu]⟩ ?_
    have hcs' : c * 2 ^ (t + 2) ≤ (2 ^ 53 - 1) * s := by omega
    calc sumUnits k o * fpOne ≤ c * 2 ^ (1023 + t) * fpOne := Nat.mul_le_mul_right _ hsum
      _ = c * 2 ^ (t + 2) * (u * fpOne) := by rw [hspacing]; ring
      _ ≤ (2 ^ 53 - 1) * s * (u * fpOne) := Nat.mul_le_mul_right _ hcs'
      _ = _ := by ring
  rw [scaledUnits_eq_quotientUnits_mul hs0, Nat.mul_comm, hone]
  refine Nat.mul_lt_mul_of_pos_left (hquot.trans_lt ?_) (by decide)
  rw [Nat.mul_comm u]
  exact Nat.mul_lt_mul_of_pos_right (by decide) hu0

/-- A pattern less than two spacings below the upper end is one spacing below it: its magnitude is in
the binade of the end, so both are multiples of the spacing. -/
theorem eq_spacing_of_near_upper_end {t j : Nat} (hto : 2 ^ t < o) (ht : t ≤ 50)
    (hk : realUnits? v = some k) (hj : (j : Int) = o * fpOne - k) (hj0 : 0 < j)
    (hlt : j < 2 ^ (1023 + t)) : j = 2 ^ (1022 + t) := by
  have hbinade : 2 ^ (52 + (1022 + t)) + j ≤ o * fpOne := by
    have hpow : 2 ^ (52 + (1022 + t)) = 2 ^ t * fpOne := by
      rw [fpOne_eq, ← pow_add]
      congr 1
      omega
    have hspacing : 2 ^ (1023 + t) ≤ fpOne := by
      rw [fpOne_eq]
      exact pow_le_pow_right₀ one_le_two (by omega)
    calc 2 ^ (52 + (1022 + t)) + j ≤ 2 ^ t * fpOne + fpOne :=
          Nat.add_le_add hpow.le (hlt.le.trans hspacing)
      _ = (2 ^ t + 1) * fpOne := (Nat.succ_mul _ _).symm
      _ ≤ o * fpOne := Nat.mul_le_mul_right _ hto
  obtain ⟨neg, m, hv, hm⟩ := realUnits?_eq_some_iff.1 hk
  have hmj : m + j = o * fpOne := by
    have hjlt : (j : Int) < o * fpOne := by
      exact_mod_cast lt_of_lt_of_le (Nat.lt_add_of_pos_left (by positivity)) hbinade
    zify
    cases neg with
    | false =>
      rw [signedUnits_false] at hm
      linarith
    | true =>
      rw [signedUnits_true] at hm
      linarith [Int.natCast_nonneg m]
  have hend : 2 ^ (1022 + t) ∣ o * fpOne := by
    rw [fpOne_eq]
    exact Dvd.dvd.mul_left (pow_dvd_pow 2 (by omega)) o
  have hmdvd : 2 ^ (1022 + t) ∣ m :=
    two_pow_dvd_of_fpRepresentable (fpOfBits_representable hv) (by omega)
  obtain ⟨c, rfl⟩ : 2 ^ (1022 + t) ∣ j := (Nat.dvd_add_right hmdvd).1 (hmj ▸ hend)
  rw [show 1023 + t = 1022 + t + 1 by omega, pow_succ] at hlt
  have hc2 : c < 2 := Nat.lt_of_mul_lt_mul_left hlt
  have hc0 : 0 < c := Nat.pos_of_mul_pos_left hj0
  rw [show c = 1 by omega, mul_one]

/-- Out of range in the domain is at most the greatest pattern below the upper end: one more spacing
down the scaled value is already below `2^32`. -/
theorem IsAxis.eq_of_quant?_eq_none (h : IsAxis off span o s) {t : Nat} (hto : 2 ^ t < o)
    (hst : s < 2 ^ (t + 2)) (ht : t ≤ 50) (hk : realUnits? v = some k)
    (hlo : -o * (fpOne : Int) ≤ k) (hhi : k < o * fpOne) (hnone : quant? v off span = none) :
    k = o * fpOne - 2 ^ (1022 + t) := by
  obtain ⟨x, hx⟩ := exists_units_above_lower_end hlo
  obtain ⟨j, hj⟩ : ∃ j : Nat, (j : Int) = o * fpOne - k :=
    ⟨_, Int.toNat_of_nonneg (by linarith)⟩
  have hxj : x + j = s * fpOne := by
    zify
    rw [hx, hj, h.span_eq, Nat.cast_mul, Nat.cast_ofNat]
    ring
  rw [h.quant?_eq hk hx (by omega), narrow32?_fin_false_eq_none_iff] at hnone
  have hjlt : j < 2 ^ (1023 + t) := by
    by_contra hge
    exact absurd (h.scaledUnits_lt hst ht hx (by omega)) hnone.not_gt
  have hj0 : 0 < j := by
    zify
    linarith
  rw [eq_spacing_of_near_upper_end hto ht hk hj hj0 hjlt, Nat.cast_pow, Nat.cast_ofNat] at hj
  rw [hj, sub_sub_cancel]

/-- In the domain exactly one pattern `w` is out of range, the greatest below the upper end. -/
theorem IsAxis.quant?_eq_none_iff (h : IsAxis off span o s) {t : Nat} (hto : 2 ^ t < o)
    (hst : s < 2 ^ (t + 2)) (ht : t ≤ 50) {w : Code}
    (hw : realUnits? w = some (o * (fpOne : Int) - 2 ^ (1022 + t)))
    (hpos : 0 < o * (fpOne : Int) - 2 ^ (1022 + t)) (hwnone : quant? w off span = none)
    (hk : realUnits? v = some k) (hlo : -o * (fpOne : Int) ≤ k) (hhi : k < o * fpOne) :
    quant? v off span = none ↔ v = w := by
  refine ⟨fun hnone => ?_, fun hvw => hvw ▸ hwnone⟩
  rw [← h.eq_of_quant?_eq_none hto hst ht hk hlo hhi hnone] at hw hpos
  exact realUnits?_inj_of_pos hpos hk hw

/-! ### Below the lower end -/

/-- Below the lower end: 0 while less than one step below it, out of range from there down (R83). -/
theorem IsAxis.quant?_below (h : IsAxis off span o s) (hk : realUnits? v = some k)
    (hlt : k < -o * fpOne) :
    (quant? v off span = some 0#32 ↔ -s * (fpOne : Int) < (k + o * fpOne) * 2 ^ 32) ∧
    (quant? v off span = none ↔ (k + o * fpOne) * 2 ^ 32 ≤ -s * fpOne) := by
  obtain ⟨a, ha⟩ : ∃ a : Nat, k + o * fpOne = -(a : Int) :=
    ⟨(-(k + o * fpOne)).toNat, by rw [Int.toNat_of_nonneg (by linarith), neg_neg]⟩
  have ha0 : 0 < a := by
    zify
    linarith
  rw [ha, neg_mul, neg_mul, neg_lt_neg_iff, neg_le_neg_iff]
  by_cases hstep : a * 2 ^ 32 < s * fpOne
  · obtain ⟨m, hm, hlt1⟩ := quantScaled_above_minus_one h.off_units h.span_units h.offset_gt.le
      h.span_pos h.span_lt.le hk ha ha0 hstep
    have hq : quant? v off span = some 0#32 := by
      rw [quant?, hm, narrow32?_fin_true, if_pos hlt1]
    exact ⟨iff_of_true hq (by exact_mod_cast hstep),
      iff_of_false (by simp [hq]) (by exact_mod_cast hstep.not_ge)⟩
  · have hq : quant? v off span = none := narrow32?_eq_none_of_atLeast_one
      (quantScaled_at_most_minus_one h.off_units h.span_units h.span_pos h.span_lt.le hk ha ha0
        (not_lt.1 hstep))
    exact ⟨iff_of_false (by simp [hq]) (by exact_mod_cast hstep),
      iff_of_true hq (by exact_mod_cast not_lt.1 hstep)⟩

theorem quant?_eq_zero_iff_of_negative {m : Nat} (hm : quantScaled v off span = .fin true m) :
    quant? v off span = some 0#32 ↔ m < fpOne := by
  rw [quant?, hm, narrow32?_fin_true]
  split_ifs with h
  · exact iff_of_true rfl h
  · exact iff_of_false (by simp) h

end Axis

/-! ### What the two commands write -/

/-- A coordinate in range is written as quantised, one out of range as its draw (R82). -/
theorem orDraw_cases (q? : Option Fixed) (k : Nat) :
    (∀ q, q? = some q → orDraw q? k = q) ∧ (q? = none → orDraw q? k = Config.quantDraw k) := by
  refine ⟨?_, ?_⟩
  · rintro q rfl
    rfl
  · rintro rfl
    rfl

/-- Settles O26: QNT commits the quantised state, whose coordinates are each the quantiser's value or
a draw. -/
theorem qntWritesEachCoordinateOnItsOwn : Obligations.QntWritesEachCoordinateOnItsOwn := by
  intro s
  obtain ⟨hlat, hlatDraw⟩ := orDraw_cases (quantLat? s.lat) s.draws
  obtain ⟨hlon, hlonDraw⟩ := orDraw_cases (quantLon? s.lon) (s.draws + 1)
  exact ⟨s.withQuantised.setFC .ok, rfl, rfl, succeeded_setFC_ok s.withQuantised, hlat, hlon,
    hlatDraw, hlonDraw, Nat.lt_succ_self _⟩

/-- Settles O60: both axes, below the lower end. -/
theorem truncationIsTowardZeroBelowTheLowerEnd :
    Obligations.TruncationIsTowardZeroBelowTheLowerEnd := by
  refine ⟨fun v k hk hlt => ?_, fun v k hk hlt => ?_⟩
  · obtain ⟨hzero, hnone⟩ := isAxis_latitude.quant?_below hk hlt
    exact ⟨hzero, hnone, fun m hm => quant?_eq_zero_iff_of_negative hm⟩
  · obtain ⟨hzero, hnone⟩ := isAxis_longitude.quant?_below hk hlt
    exact ⟨hzero, hnone, fun m hm => quant?_eq_zero_iff_of_negative hm⟩

/-- Settles O28: both axes, at or above the lower end. -/
theorem quantiserLiesBetweenFloorAndCeiling : Obligations.QuantiserLiesBetweenFloorAndCeiling :=
  ⟨fun _ _ _ hk hlo hq => isAxis_latitude.quant?_between hk hlo hq,
    fun _ _ _ hk hlo hq => isAxis_longitude.quant?_between hk hlo hq⟩

/-- Settles O29: both axes, in the domain. -/
theorem scaledValueIsWithinTwoToMinus19 : Obligations.ScaledValueIsWithinTwoToMinus19 :=
  ⟨fun _ _ hk hlo hhi => isAxis_latitude.quantScaled_near hk hlo hhi,
    fun _ _ hk hlo hhi => isAxis_longitude.quantScaled_near hk hlo hhi⟩

/-- The greatest latitude below 90 lies `2^-46` below it and is out of range (R83). -/
theorem greatest_latitude_below_90 :
    realUnits? 0x40567FFFFFFFFFFF#64 = some ((90 : Nat) * (fpOne : Int) - 2 ^ (1022 + 6)) ∧
    0 < (90 : Nat) * (fpOne : Int) - 2 ^ (1022 + 6) ∧ quantLat? 0x40567FFFFFFFFFFF#64 = none := by
  decide +kernel

/-- The greatest longitude below 180 lies `2^-45` below it and is out of range (R83). -/
theorem greatest_longitude_below_180 :
    realUnits? 0x40667FFFFFFFFFFF#64 = some ((180 : Nat) * (fpOne : Int) - 2 ^ (1022 + 7)) ∧
    0 < (180 : Nat) * (fpOne : Int) - 2 ^ (1022 + 7) ∧ quantLon? 0x40667FFFFFFFFFFF#64 = none := by
  decide +kernel

/-- Settles O27: both axes, in the domain, from the upper end up, and where there is no number. The
spacing below 90 and below 180 is that of the binades from `2^6` and from `2^7`. -/
theorem exactlyOneInDomainInputOfEachKindIsOutOfRange :
    Obligations.ExactlyOneInDomainInputOfEachKindIsOutOfRange := by
  obtain ⟨hlat, hlatPos, hlatNone⟩ := greatest_latitude_below_90
  obtain ⟨hlon, hlonPos, hlonNone⟩ := greatest_longitude_below_180
  exact ⟨fun v k hk hlo hhi => isAxis_latitude.quant?_eq_none_iff (t := 6) (by decide) (by decide)
      (by decide) hlat hlatPos hlatNone hk hlo hhi,
    fun v k hk hlo hhi => isAxis_longitude.quant?_eq_none_iff (t := 7) (by decide) (by decide)
      (by decide) hlon hlonPos hlonNone hk hlo hhi,
    fun v k hk hhi => isAxis_latitude.quant?_eq_none_of_ge hk hhi,
    fun v k hk hhi => isAxis_longitude.quant?_eq_none_of_ge hk hhi,
    fun v hv => ⟨isAxis_latitude.quant?_eq_none_of_not_finite hv,
      isAxis_longitude.quant?_eq_none_of_not_finite hv⟩⟩

/-- An exact zero is plus zero (R9). -/
theorem dequant_eq_zero {q : Fixed} {span off : Nat} (h : q.toNat * span = off * 2 ^ 32) :
    dequant q span off = 0#64 := by
  rw [dequant, h, sub_self, f64_zero]

/-- Settles O30: DQNT commits the two dequantised patterns, whose reals are exact. -/
theorem dqntWritesTheExactReals : Obligations.DqntWritesTheExactReals := by
  intro s
  refine ⟨_, rfl, rfl, succeeded_setFC_ok _, realUnits_dequant s.qlat (by decide) (by decide),
    realUnits_dequant s.qlon (by decide) (by decide), fun hlat => ?_, fun hlon => ?_⟩
  · exact (congrArg dequantLat hlat).trans (dequant_eq_zero (by decide))
  · exact (congrArg dequantLon hlon).trans (dequant_eq_zero (by decide))

/-- A dequantised projection is a whole step, so it is quantised back to itself (R88). -/
theorem quantLat?_dequantLat (q : Fixed) : quantLat? (dequantLat q) = some q := by
  obtain ⟨u, hu, hstep⟩ := realUnits_dequant q (span := 180) (off := 90) (by decide) (by decide)
  exact isAxis_latitude.quant?_of_exact_step hu hstep

theorem quantLon?_dequantLon (q : Fixed) : quantLon? (dequantLon q) = some q := by
  obtain ⟨u, hu, hstep⟩ := realUnits_dequant q (span := 360) (off := 180) (by decide) (by decide)
  exact isAxis_longitude.quant?_of_exact_step hu hstep

/-- Settles O31: both coordinates are in range after DQNT, and quantise back to the projections. -/
theorem qntAfterDqntRestoresTheProjections : Obligations.QntAfterDqntRestoresTheProjections :=
  fun s => ⟨_, _, rfl, rfl, (orDraw_cases _ _).1 _ (quantLat?_dequantLat s.qlat),
    (orDraw_cases _ _).1 _ (quantLon?_dequantLon s.qlon)⟩

end Sys2Proof.Machine

/-! ### Proofs of the bit-spread family: the bit functions, their networks, and the four commands -/

namespace Sys2Proof.Machine

/-! ### The two bit functions, at even and at odd positions -/

theorem getLsbD_spread_even (x : Fixed) (i : Nat) : (spread x).getLsbD (2 * i) = x.getLsbD i := by
  simp [getLsbD_spread]

theorem getLsbD_spread_odd (x : Fixed) (i : Nat) : (spread x).getLsbD (2 * i + 1) = false := by
  simp [getLsbD_spread]

/-- A code is fixed by its even and its odd bits. -/
theorem code_eq_of_even_odd {c d : Code}
    (heven : ∀ i < 32, c.getLsbD (2 * i) = d.getLsbD (2 * i))
    (hodd : ∀ i < 32, c.getLsbD (2 * i + 1) = d.getLsbD (2 * i + 1)) : c = d := by
  refine BitVec.eq_of_getLsbD_eq fun j hj => ?_
  obtain ⟨i, rfl | rfl⟩ := j.even_or_odd'
  · exact heven i (by omega)
  · exact hodd i (by omega)

theorem squash_spread (x : Fixed) : squash (spread x) = x :=
  BitVec.eq_of_getLsbD_eq fun i _ => by rw [getLsbD_squash, getLsbD_spread_even]

/-! ### The masks of the networks -/

/-- `m` keeps the low `g` bits of each field of `2 * g` bits. -/
def IsGroupMask (g : Nat) (m : Code) : Prop :=
  ∀ j < 64, m.getLsbD j = decide (j % (2 * g) < g)

section Mask
variable {g f r : Nat} {m : Code}

theorem IsGroupMask.getLsbD_low (h : IsGroupMask g m) (hr : r < g) (hx : g * f + r < 32) :
    m.getLsbD (2 * (g * f) + r) = true := by
  rw [h _ (by omega), ← Nat.mul_assoc, Nat.mul_add_mod, Nat.mod_eq_of_lt (by omega)]
  exact decide_eq_true hr

theorem IsGroupMask.getLsbD_high (h : IsGroupMask g m) (hr : r < g) :
    m.getLsbD (2 * (g * f) + (g + r)) = false := by
  by_cases hj : 2 * (g * f) + (g + r) < 64
  · rw [h _ hj, ← Nat.mul_assoc, Nat.mul_add_mod, Nat.mod_eq_of_lt (by omega)]
    exact decide_eq_false (by omega)
  · exact BitVec.getLsbD_of_ge m _ (not_lt.1 hj)

end Mask

theorem isGroupMask_1 : IsGroupMask 1 0x5555555555555555#64 := by unfold IsGroupMask; decide
theorem isGroupMask_2 : IsGroupMask 2 0x3333333333333333#64 := by unfold IsGroupMask; decide
theorem isGroupMask_4 : IsGroupMask 4 0x0F0F0F0F0F0F0F0F#64 := by unfold IsGroupMask; decide
theorem isGroupMask_8 : IsGroupMask 8 0x00FF00FF00FF00FF#64 := by unfold IsGroupMask; decide
theorem isGroupMask_16 : IsGroupMask 16 0x0000FFFF0000FFFF#64 := by unfold IsGroupMask; decide
theorem isGroupMask_32 : IsGroupMask 32 0x00000000FFFFFFFF#64 := by unfold IsGroupMask; decide

theorem spread_squash (y : Code) : spread (squash y) = y &&& 0x5555555555555555#64 := by
  apply code_eq_of_even_odd
  · intro i hi
    have hm := isGroupMask_1.getLsbD_low (f := i) (r := 0) one_pos (by omega)
    rw [one_mul, add_zero] at hm
    rw [getLsbD_spread_even, getLsbD_squash, BitVec.getLsbD_and, hm, Bool.and_true]
  · intro i hi
    have hm := isGroupMask_1.getLsbD_high (f := i) (r := 0) one_pos
    rw [one_mul, add_zero] at hm
    rw [getLsbD_spread_odd, BitVec.getLsbD_and, hm, Bool.and_false]

/-! ### The invariant of the networks (R101) -/

/-- The bits of `x` stand in `y` in groups of `g`, each group at the low end of a field twice its
size, whose high end is zero. -/
def InGroups (g : Nat) (x : Fixed) (y : Code) : Prop :=
  ∀ f r, r < g → g * f + r < 32 →
    y.getLsbD (2 * (g * f) + r) = x.getLsbD (g * f + r) ∧
    y.getLsbD (2 * (g * f) + (g + r)) = false

theorem inGroups_32_setWidth (x : Fixed) : InGroups 32 x (x.setWidth 64) := by
  intro f r hr hx
  obtain rfl : f = 0 := by omega
  rw [BitVec.getLsbD_setWidth, BitVec.getLsbD_setWidth, decide_eq_true (by omega), Bool.true_and]
  exact ⟨rfl, by rw [x.getLsbD_of_ge _ (by omega), Bool.and_false]⟩

theorem InGroups.setWidth_32 {x : Fixed} {y : Code} (h : InGroups 32 x y) : y.setWidth 32 = x := by
  refine BitVec.eq_of_getLsbD_eq fun i hi => ?_
  obtain ⟨hlow, -⟩ := h 0 i hi (by omega)
  simpa [hi] using hlow

theorem inGroups_1_iff {x : Fixed} {y : Code} : InGroups 1 x y ↔ y = spread x := by
  constructor
  · intro h
    apply code_eq_of_even_odd
    · intro i hi
      obtain ⟨hlow, -⟩ := h i 0 one_pos (by omega)
      rw [getLsbD_spread_even]
      simpa using hlow
    · intro i hi
      obtain ⟨-, hhigh⟩ := h i 0 one_pos (by omega)
      rw [getLsbD_spread_odd]
      simpa using hhigh
  · rintro rfl f r hr -
    obtain rfl : r = 0 := by omega
    rw [one_mul]
    exact ⟨getLsbD_spread_even x f, getLsbD_spread_odd x f⟩

theorem mul_even_field (g e : Nat) : g * (2 * e) = 2 * g * e := by
  rw [Nat.mul_left_comm, Nat.mul_assoc]

theorem mul_odd_field (g e : Nat) : g * (2 * e + 1) = 2 * g * e + g := by
  rw [Nat.mul_succ, mul_even_field]

section Stage
variable {g e r : Nat} {x : Fixed} {y m : Code}

/-- Moved up by less than a field, what falls on the low end of a field is the zero end of the field
before it. -/
theorem InGroups.getLsbD_shl64_low (h : InGroups (2 * g) x y) (hr : r < g)
    (hx : 2 * g * e + r < 32) : (shl64 y g).getLsbD (2 * (2 * g * e) + r) = false := by
  rw [getLsbD_shl64]
  cases e with
  | zero => rw [decide_eq_false (p := g ≤ _) (by omega), Bool.and_false, Bool.false_and]
  | succ e =>
    rw [Nat.mul_succ] at hx ⊢
    obtain ⟨-, hhigh⟩ := h e (g + r) (by omega) (by omega)
    rw [show 2 * (2 * g * e + 2 * g) + r - g = 2 * (2 * g * e) + (2 * g + (g + r)) by omega, hhigh,
      Bool.and_false]

/-- A stage of the spread network halves the groups: the upper half of each moves up by `g`, to the
low end of a field of its own. -/
theorem InGroups.spreadStage (h : InGroups (2 * g) x y) (hm : IsGroupMask g m) :
    InGroups g x ((y ||| shl64 y g) &&& m) := by
  intro f r hr hx
  refine ⟨?_, by rw [BitVec.getLsbD_and, hm.getLsbD_high hr, Bool.and_false]⟩
  rw [BitVec.getLsbD_and, hm.getLsbD_low hr hx, Bool.and_true, BitVec.getLsbD_or]
  obtain ⟨e, rfl | rfl⟩ := f.even_or_odd'
  · -- The lower half of a group stays; a zero end moves onto it.
    rw [mul_even_field] at hx ⊢
    obtain ⟨hlow, -⟩ := h e r (by omega) hx
    rw [hlow, h.getLsbD_shl64_low hr hx, Bool.or_false]
  · -- The upper half of a group moves onto the zero end of its field.
    rw [mul_odd_field] at hx ⊢
    obtain ⟨-, hhigh⟩ := h e r (by omega) (by omega)
    obtain ⟨hlow, -⟩ := h e (g + r) (by omega) (by omega)
    rw [show 2 * (2 * g * e + g) + r = 2 * (2 * g * e) + (2 * g + r) by omega, hhigh,
      Bool.false_or, getLsbD_shl64, decide_eq_true (by omega), decide_eq_true (by omega),
      Bool.true_and, Bool.true_and,
      show 2 * (2 * g * e) + (2 * g + r) - g = 2 * (2 * g * e) + (g + r) by omega, hlow,
      Nat.add_assoc]

/-- A stage of the squash network joins each two neighbouring groups: the upper one moves down by
`g`, on top of the lower one. -/
theorem InGroups.squashStage (h : InGroups g x y) (hm : IsGroupMask (2 * g) m) :
    InGroups (2 * g) x ((y ||| shr64 y g) &&& m) := by
  intro e r hr hx
  refine ⟨?_, by rw [BitVec.getLsbD_and, hm.getLsbD_high hr, Bool.and_false]⟩
  rw [BitVec.getLsbD_and, hm.getLsbD_low hr hx, Bool.and_true, BitVec.getLsbD_or, getLsbD_shr64]
  by_cases hrg : r < g
  · -- A bit of the lower group stays; the zero end of its field moves onto it.
    obtain ⟨hlow, hhigh⟩ := h (2 * e) r hrg (by rw [mul_even_field]; omega)
    rw [mul_even_field] at hlow hhigh
    rw [hlow, show g + (2 * (2 * g * e) + r) = 2 * (2 * g * e) + (g + r) by omega, hhigh,
      Bool.or_false]
  · -- A bit of the upper group moves onto the zero end of the lower field.
    obtain ⟨k, rfl⟩ := Nat.exists_eq_add_of_le (not_lt.1 hrg)
    obtain ⟨-, hhigh⟩ := h (2 * e) k (by omega) (by rw [mul_even_field]; omega)
    obtain ⟨hlow, -⟩ := h (2 * e + 1) k (by omega) (by rw [mul_odd_field]; omega)
    rw [mul_even_field] at hhigh
    rw [mul_odd_field] at hlow
    rw [hhigh, Bool.false_or,
      show g + (2 * (2 * g * e) + (g + k)) = 2 * (2 * g * e + g) + k by omega, hlow, Nat.add_assoc]

end Stage

theorem spreadNetwork_eq_spread (x : Fixed) : spreadNetwork x = spread x :=
  inGroups_1_iff.1 <| (inGroups_32_setWidth x)
    |>.spreadStage isGroupMask_16
    |>.spreadStage isGroupMask_8
    |>.spreadStage isGroupMask_4
    |>.spreadStage isGroupMask_2
    |>.spreadStage isGroupMask_1

theorem squashNetwork_eq_squash (y : Code) : squashNetwork y = squash y :=
  (inGroups_1_iff.2 (spread_squash y).symm)
    |>.squashStage isGroupMask_2
    |>.squashStage isGroupMask_4
    |>.squashStage isGroupMask_8
    |>.squashStage isGroupMask_16
    |>.squashStage isGroupMask_32
    |>.setWidth_32

/-! ### Interleaving -/

theorem getLsbD_interleave_even (a b : Fixed) (i : Nat) :
    (interleave a b).getLsbD (2 * i) = a.getLsbD i := by
  simp [getLsbD_interleave]

theorem getLsbD_interleave_odd (a b : Fixed) (i : Nat) :
    (interleave a b).getLsbD (2 * i + 1) = b.getLsbD i := by
  rw [getLsbD_interleave, if_neg (by omega), show (2 * i + 1) / 2 = i by omega]

theorem latOfCode_interleave (a b : Fixed) : latOfCode (interleave a b) = a :=
  BitVec.eq_of_getLsbD_eq fun i _ => by rw [getLsbD_latOfCode, getLsbD_interleave_even]

theorem lonOfCode_interleave (a b : Fixed) : lonOfCode (interleave a b) = b :=
  BitVec.eq_of_getLsbD_eq fun i _ => by rw [getLsbD_lonOfCode, getLsbD_interleave_odd]

theorem interleave_latOfCode_lonOfCode (c : Code) : interleave (latOfCode c) (lonOfCode c) = c :=
  code_eq_of_even_odd
    (fun i _ => by rw [getLsbD_interleave_even, getLsbD_latOfCode])
    (fun i _ => by rw [getLsbD_interleave_odd, getLsbD_lonOfCode])

/-- The lane of longitude has no bit at an even position. -/
theorem getLsbD_shl64_spread_even (b : Fixed) (i : Nat) :
    (shl64 (spread b) 1).getLsbD (2 * i) = false := by
  rw [getLsbD_shl64]
  cases i with
  | zero => rfl
  | succ i => rw [show 2 * (i + 1) - 1 = 2 * i + 1 by omega, getLsbD_spread_odd, Bool.and_false]

/-- The two lanes share no bit (R104). -/
theorem spread_and_shl64_spread (a b : Fixed) : spread a &&& shl64 (spread b) 1 = 0#64 := by
  apply code_eq_of_even_odd
  · intro i _
    rw [BitVec.getLsbD_and, getLsbD_shl64_spread_even, Bool.and_false, BitVec.getLsbD_zero]
  · intro i _
    rw [BitVec.getLsbD_and, getLsbD_spread_odd, Bool.false_and, BitVec.getLsbD_zero]

/-! ### The obligations -/

/-- Settles O32: SPREAD commits `spread` of the low half. -/
theorem spreadPlacesEachBitAtTwiceItsIndex : Obligations.SpreadPlacesEachBitAtTwiceItsIndex := by
  refine fun s => ⟨_, rfl, rfl, succeeded_setFC_ok _, fun i hi => ⟨?_, getLsbD_spread_odd _ i⟩⟩
  rw [State.setFC_code, getLsbD_spread_even, BitVec.getLsbD_setWidth, decide_eq_true hi,
    Bool.true_and]

/-- Settles O33: SQUASH commits `squash`, widened by zeros. -/
theorem squashGathersTheEvenBits : Obligations.SquashGathersTheEvenBits := by
  refine fun s => ⟨_, rfl, rfl, succeeded_setFC_ok _, fun i hi => ?_⟩
  simp only [State.setFC_code, BitVec.getLsbD_setWidth, getLsbD_squash]
  constructor
  · rw [decide_eq_true (by omega), Bool.true_and]
  · rw [BitVec.getLsbD_of_ge s.code _ (by omega), Bool.and_false]

/-- Settles O34: each stage keeps the bits in groups, halved or doubled. -/
theorem networksEqualTheBitFunctions : Obligations.NetworksEqualTheBitFunctions :=
  ⟨spreadNetwork_eq_spread, squashNetwork_eq_squash⟩

/-- Settles O35: the bits of `squash`, and the two inverse laws. -/
theorem squashInvertsSpread : Obligations.SquashInvertsSpread :=
  ⟨fun y i _ => getLsbD_squash y i, squash_spread, spread_squash⟩

/-- Settles O36: ILV commits the interleaving, whose two lanes share no bit. -/
theorem ilvPutsLatitudeEvenAndLongitudeOdd : Obligations.IlvPutsLatitudeEvenAndLongitudeOdd :=
  fun s => ⟨_, rfl, rfl, succeeded_setFC_ok _,
    fun i _ => ⟨getLsbD_interleave_even s.qlat s.qlon i, getLsbD_interleave_odd s.qlat s.qlon i⟩,
    spread_and_shl64_spread s.qlat s.qlon⟩

/-- Settles O37: DILV commits the two halves of the code, and interleaving inverts taking them. -/
theorem dilvAndIlvAreInverse : Obligations.DilvAndIlvAreInverse := fun s =>
  ⟨⟨_, _, rfl, rfl, succeeded_setFC_ok _,
      fun i _ => ⟨getLsbD_latOfCode s.code i, getLsbD_lonOfCode s.code i⟩, rfl,
      interleave_latOfCode_lonOfCode s.code⟩,
    ⟨_, _, rfl, rfl, latOfCode_interleave s.qlat s.qlon, lonOfCode_interleave s.qlat s.qlon⟩⟩

end Sys2Proof.Machine

/-! ### Proofs of the Morton family: MENC, MDEC and TRUNC, and what truncation loses -/

namespace Sys2Proof.Machine

/-! ### Clearing the low bits of a word -/

/-- Clearing the low `n` bits rounds the number down to a multiple of `2 ^ n`. -/
theorem toNat_eq_of_low_bits_cleared {w n : Nat} {x y : BitVec w}
    (h : ∀ i, y.getLsbD i = (decide (n ≤ i) && x.getLsbD i)) :
    y.toNat = x.toNat / 2 ^ n * 2 ^ n := by
  refine Nat.eq_of_testBit_eq fun i => ?_
  rw [BitVec.testBit_toNat, h, Nat.testBit_mul_two_pow, Nat.testBit_div_two_pow,
    BitVec.testBit_toNat]
  by_cases hi : n ≤ i
  · rw [Nat.sub_add_cancel hi]
  · rw [decide_eq_false hi, Bool.false_and, Bool.false_and]

theorem getLsbD_and_tmask (c : Code) (b j : Nat) :
    (c &&& tmask b).getLsbD j = (decide (64 - b ≤ j) && c.getLsbD j) := by
  rw [BitVec.getLsbD_and, getLsbD_tmask, Bool.and_comm]
  by_cases hj : j < 64
  · rw [decide_eq_true hj, Bool.true_and]
  · rw [BitVec.getLsbD_of_ge c j (not_lt.1 hj), Bool.and_false, Bool.and_false]

theorem toNat_and_tmask (c : Code) (b : Nat) :
    (c &&& tmask b).toNat = c.toNat / 2 ^ (64 - b) * 2 ^ (64 - b) :=
  toNat_eq_of_low_bits_cleared (getLsbD_and_tmask c b)

/-- Two codes truncate alike exactly when their top bits agree (R126). -/
theorem and_tmask_eq_iff {c d : Code} {b : Nat} :
    c &&& tmask b = d &&& tmask b ↔ c.toNat / 2 ^ (64 - b) = d.toNat / 2 ^ (64 - b) := by
  rw [← BitVec.toNat_inj, toNat_and_tmask, toNat_and_tmask, Nat.mul_left_inj (by positivity)]

theorem tmask_and_tmask (b1 b2 : Nat) : tmask b1 &&& tmask b2 = tmask (min b1 b2) := by
  refine BitVec.eq_of_getLsbD_eq fun j hj => ?_
  rw [getLsbD_and_tmask, getLsbD_tmask, getLsbD_tmask, decide_eq_true hj, Bool.true_and,
    Bool.true_and, ← Bool.decide_and]
  exact decide_eq_decide.2 (by omega)

/-! ### Alignment -/

theorem lalign_64 (c : Code) : lalign c 64 = c := BitVec.shiftLeft_zero c

/-- Aligning the right-aligned top bits left clears the bits below them. -/
theorem lalign_shr64 (c : Code) (b : Nat) : lalign (shr64 c (64 - b)) b = c &&& tmask b := by
  refine BitVec.eq_of_getLsbD_eq fun j hj => ?_
  rw [getLsbD_lalign, getLsbD_shr64, getLsbD_and_tmask, decide_eq_true hj, Bool.true_and]
  by_cases hb : 64 - b ≤ j
  · rw [Nat.add_sub_cancel' hb]
  · rw [decide_eq_false hb, Bool.false_and, Bool.false_and]

/-! ### The two commands with a count -/

theorem exec_mdec_of_le {b : Nat} (h : b ≤ 64) (s : State) :
    exec (.mdec b) s = .next ((s.withDecoded (lalign s.code b)).setFC .ok) :=
  if_neg h.not_gt

theorem exec_mdec_of_gt {b : Nat} (h : 64 < b) (s : State) :
    exec (.mdec b) s = .next (s.setFC .invalidBitCount) :=
  if_pos h

theorem exec_trunc_of_le {b : Nat} (h : b ≤ 64) (s : State) :
    exec (.trunc b) s = .next ({ s with code := s.code &&& tmask b }.setFC .ok) :=
  if_neg h.not_gt

theorem exec_trunc_of_gt {b : Nat} (h : 64 < b) (s : State) :
    exec (.trunc b) s = .next (s.setFC .invalidBitCount) :=
  if_pos h

/-- Settles O39: an accepted count commits the decode of the aligned code, another is refused. -/
theorem mdecDecodesTheLowBits : Obligations.MdecDecodesTheLowBits := by
  refine fun b s => ⟨fun hb => ?_, fun hb => ⟨_, exec_mdec_of_gt hb s, rfl,
    State.fc_setFC .invalidBitCount s⟩⟩
  refine ⟨_, exec_mdec_of_le hb s, rfl, succeeded_setFC_ok _, fun i hi => ⟨?_, ?_⟩,
    realUnits_dequant _ (by decide) (by decide), realUnits_dequant _ (by decide) (by decide),
    fun hlat => ?_, fun hlon => ?_⟩
  · rw [State.setFC_qlat, State.withDecoded_qlat, getLsbD_latOfCode, getLsbD_lalign,
      decide_eq_true (by omega), Bool.true_and]
  · rw [State.setFC_qlon, State.withDecoded_qlon, getLsbD_lonOfCode, getLsbD_lalign,
      decide_eq_true (by omega), Bool.true_and]
  · exact (congrArg dequantLat hlat).trans (dequant_eq_zero (by decide))
  · exact (congrArg dequantLon hlon).trans (dequant_eq_zero (by decide))

/-- Truncating twice is truncating to the smaller count, the status code included (R126). -/
theorem exec_trunc_trunc {b1 b2 : Nat} (h1 : b1 ≤ 64) (h2 : b2 ≤ 64) (s : State) :
    ∃ t u, exec (.trunc b1) s = .next t ∧ exec (.trunc b2) t = .next u ∧
      exec (.trunc (min b1 b2)) s = .next u := by
  refine ⟨_, _, exec_trunc_of_le h1 s, exec_trunc_of_le h2 _, ?_⟩
  rw [exec_trunc_of_le (min_le_of_left_le h1), ← tmask_and_tmask, ← BitVec.and_assoc]
  exact congrArg _ (State.setFC_setFC .ok .ok _).symm

/-- Settles O40: an accepted count commits the masked code, whose number is rounded down to the kept
bits; masks compose to the smaller count. -/
theorem truncKeepsTheTopBits : Obligations.TruncKeepsTheTopBits := by
  refine ⟨fun b s => ⟨fun hb => ?_, fun hb => ?_⟩, fun _ _ s h1 h2 => exec_trunc_trunc h1 h2 s,
    fun b s s' t t' hb ht ht' => ?_⟩
  · exact ⟨_, exec_trunc_of_le hb s, rfl, succeeded_setFC_ok _, toNat_and_tmask s.code b⟩
  · exact ⟨_, exec_trunc_of_gt hb s, rfl, State.fc_setFC .invalidBitCount s⟩
  · rw [exec_trunc_of_le hb] at ht ht'
    cases ht
    cases ht'
    exact and_tmask_eq_iff

/-- Settles O41: both commands decode the truncated code, which aligning its own top bits gives
back. -/
theorem mdecOfRightAlignedIsMdecOfTruncated : Obligations.MdecOfRightAlignedIsMdecOfTruncated := by
  intro b s c hb
  have haligned : lalign (shr64 (c &&& tmask b) (64 - b)) b = lalign (c &&& tmask b) 64 := by
    rw [lalign_shr64, BitVec.and_assoc, BitVec.and_self, lalign_64]
  refine ⟨_, _, exec_mdec_of_le hb _, exec_mdec_of_le le_rfl _, ?_⟩
  simp only [haligned, State.setFC_qlat, State.setFC_qlon, State.setFC_lat, State.setFC_lon,
    State.withDecoded_qlat, State.withDecoded_qlon, State.withDecoded_lat, State.withDecoded_lon,
    and_self]

/-! ### What truncation takes from a projection and from its point -/

/-- Latitude keeps `floor(b/2)` of its bits (R110). -/
theorem toNat_latOfCode_and_tmask (c : Code) (b : Nat) :
    (latOfCode (c &&& tmask b)).toNat =
      (latOfCode c).toNat / 2 ^ (32 - b / 2) * 2 ^ (32 - b / 2) := by
  refine toNat_eq_of_low_bits_cleared fun i => ?_
  rw [getLsbD_latOfCode, getLsbD_latOfCode, getLsbD_and_tmask]
  congr 1
  exact decide_eq_decide.2 (by omega)

/-- Longitude keeps the other `b - floor(b/2)` bits (R110). -/
theorem toNat_lonOfCode_and_tmask (c : Code) (b : Nat) :
    (lonOfCode (c &&& tmask b)).toNat =
      (lonOfCode c).toNat / 2 ^ (32 - (b - b / 2)) * 2 ^ (32 - (b - b / 2)) := by
  refine toNat_eq_of_low_bits_cleared fun i => ?_
  rw [getLsbD_lonOfCode, getLsbD_lonOfCode, getLsbD_and_tmask]
  congr 1
  exact decide_eq_decide.2 (by omega)

/-- A projection cut to its top `k` bits is dequantised less than `span / 2^k` degrees lower. -/
theorem realUnits_dequant_of_cut {q q' : Fixed} {k span off : Nat} (hk : k ≤ 32)
    (hcut : q'.toNat = q.toNat / 2 ^ (32 - k) * 2 ^ (32 - k)) (hs0 : 0 < span)
    (hs : span ≤ 2 ^ 20) (ho : off ≤ 2 ^ 20) :
    ∃ u u' : Int, realUnits? (dequant q span off) = some u ∧
      realUnits? (dequant q' span off) = some u' ∧
      0 ≤ u - u' ∧ (u - u') * 2 ^ k < span * fpOne := by
  obtain ⟨u, hu, hexact⟩ := realUnits_dequant q hs ho
  obtain ⟨u', hu', hexact'⟩ := realUnits_dequant q' hs ho
  have hsplit : q.toNat = q'.toNat + q.toNat % 2 ^ (32 - k) := by
    rw [hcut, Nat.div_add_mod']
  have hlost : q.toNat % 2 ^ (32 - k) < 2 ^ (32 - k) := Nat.mod_lt _ (by positivity)
  generalize q.toNat % 2 ^ (32 - k) = r at hsplit hlost
  have hdiff : (u - u') * 2 ^ 32 = r * (span * fpOne) := by
    rw [sub_mul, hexact, hexact', hsplit]
    push_cast
    ring
  have hstep : (0 : Int) < span * fpOne := by exact_mod_cast Nat.mul_pos hs0 fpOne_pos
  refine ⟨u, u', hu, hu', ?_, ?_⟩
  · refine nonneg_of_mul_nonneg_left (b := 2 ^ 32) ?_ (by decide)
    rw [hdiff]
    exact mul_nonneg r.cast_nonneg hstep.le
  · refine lt_of_mul_lt_mul_right (a := 2 ^ 32) ?_ (by decide)
    have hr : (r : Int) * 2 ^ k < 2 ^ 32 := by
      rw [← Nat.sub_add_cancel hk, pow_add]
      exact mul_lt_mul_of_pos_right (by exact_mod_cast hlost) (by positivity)
    calc (u - u') * 2 ^ k * 2 ^ 32 = r * 2 ^ k * (span * fpOne) := by
          rw [mul_right_comm, hdiff, mul_right_comm]
      _ < 2 ^ 32 * (span * fpOne) := mul_lt_mul_of_pos_right hr hstep
      _ = span * fpOne * 2 ^ 32 := mul_comm _ _

/-- Settles O42: latitude and longitude are each cut to their share of the `b` bits. -/
theorem truncationErrorIsBelowTheCellSize : Obligations.TruncationErrorIsBelowTheCellSize := by
  intro b c hb
  obtain ⟨la, la', hla, hla', hlat0, hlat⟩ := realUnits_dequant_of_cut (span := 180) (off := 90)
    (by omega) (toNat_latOfCode_and_tmask c b) (by decide) (by decide) (by decide)
  obtain ⟨lo, lo', hlo, hlo', hlon0, hlon⟩ := realUnits_dequant_of_cut (span := 360) (off := 180)
    (by omega) (toNat_lonOfCode_and_tmask c b) (by decide) (by decide) (by decide)
  exact ⟨la, la', lo, lo', hla, hla', hlo, hlo', hlat0, hlat, hlon0, hlon⟩

/-! ### Encoding -/

/-- Settles O38: ILV after QNT interleaves what QNT wrote, and commits what MENC does, as a second
success writes the same status. -/
theorem mencIsQntThenIlv : Obligations.MencIsQntThenIlv := fun s =>
  ⟨s.withQuantised.setFC .ok, s.withEncoded.setFC .ok, rfl,
    congrArg Host.Outcome.next (State.setFC_setFC .ok .ok s.withEncoded), rfl, rfl,
    succeeded_setFC_ok s.withEncoded, rfl, (orDraw_cases _ _).1, (orDraw_cases _ _).1⟩

/-- A decoded state quantises back to the projections of the code, so it encodes to the code. -/
theorem State.withDecoded_withEncoded_code (c : Code) (s : State) :
    (s.withDecoded c).withEncoded.code = c := by
  have hlat : (s.withDecoded c).quantLat = latOfCode c :=
    (orDraw_cases _ _).1 _ (quantLat?_dequantLat (latOfCode c))
  have hlon : (s.withDecoded c).quantLon = lonOfCode c :=
    (orDraw_cases _ _).1 _ (quantLon?_dequantLon (lonOfCode c))
  rw [State.withEncoded_code, hlat, hlon, interleave_latOfCode_lonOfCode]

/-- Settles O43: MDEC 64 decodes the code as it stands, and MENC encodes the decoded point. -/
theorem mencAfterMdecRestoresTheCode : Obligations.MencAfterMdecRestoresTheCode := fun s =>
  ⟨_, _, exec_mdec_of_le le_rfl s, rfl,
    (s.withDecoded_withEncoded_code (lalign s.code 64)).trans (lalign_64 s.code)⟩

end Sys2Proof.Machine

/-! ### Proofs of the base32 family: the characters, B32E, B32D, and what they undo of each other -/

namespace Sys2Proof.Machine

/-! ### Characters and digits -/

theorem romEnc_in_range : ∀ b ∈ romEnc, ¬ (b < 0x30#8 ∨ 0x7A#8 < b) := by decide

/-- In the range of R143 the table holds the entry of the byte, and outside it no byte is valid. -/
theorem b32digit?_eq_ite (b : Byte) :
    b32digit? b = if b ∈ romEnc then some (BitVec.ofNat 5 (romEnc.idxOf b)) else none := by
  by_cases hrange : b < 0x30#8 ∨ 0x7A#8 < b
  · rw [b32digit?, if_pos hrange, if_neg fun hb => romEnc_in_range b hb hrange]
  · have hbyte : BitVec.ofNat 8 (0x30 + (b.toNat - 0x30)) = b := by bv_omega
    have hentry : romRead romDec (b.toNat - 0x30) = decodeEntry b := by
      rw [romRead, List.getD_eq_getElem?_getD, getElem?_romDec (by bv_omega), hbyte,
        Option.getD_some]
    simp only [b32digit?, if_neg hrange, hentry, decodeEntry_eq_decInv_iff]
    by_cases hb : b ∈ romEnc
    · rw [if_neg (not_not_intro hb), if_pos hb, decodeEntry_of_mem hb,
        BitVec.setWidth_ofNat_of_le (by decide)]
    · rw [if_pos hb, if_neg hb]

theorem b32digit?_eq_none_iff {b : Byte} : b32digit? b = none ↔ b ∉ romEnc := by
  rw [b32digit?_eq_ite]
  by_cases hb : b ∈ romEnc <;> simp [hb]

theorem b32digit?_eq_some_iff {b : Byte} {d : Digit} :
    b32digit? b = some d ↔ romEnc[d.toNat]? = some b := by
  rw [b32digit?_eq_ite, getElem?_romEnc_eq_some_iff]
  by_cases hb : b ∈ romEnc
  · have hlt : romEnc.idxOf b < 32 := idxOf_romEnc_lt hb
    rw [if_pos hb, Option.some_inj, and_iff_right hb]
    bv_omega
  · simp [hb]

/-- Settles O46: `b32digit?` finds the place of a byte in the alphabet. -/
theorem validBytesAreExactlyTheAlphabet : Obligations.ValidBytesAreExactlyTheAlphabet :=
  ⟨fun _ => b32digit?_eq_none_iff, fun _ _ => b32digit?_eq_some_iff⟩

theorem toNat_digitAt (v : Code) (i : Nat) :
    (digitAt v i).toNat = v.toNat / 2 ^ (55 - 5 * i) % 32 := by
  rw [digitAt, BitVec.extractLsb'_toNat, Nat.shiftRight_eq_div_pow]

theorem getElem?_romEnc_digitAt (v : Code) (i : Nat) :
    romEnc[(digitAt v i).toNat]? = some (b32char v i) := by
  have hlt : (digitAt v i).toNat < romEnc.length := (digitAt v i).isLt
  rw [b32char, romRead, List.getD_eq_getElem _ _ hlt, List.getElem?_eq_getElem hlt]

/-! ### The number that digits name -/

/-- The base-32 number of a list of digits, the first the most significant (R144). -/
def digitsValue (ds : List Digit) : Nat := ds.foldl (fun n d => n * 32 + d.toNat) 0

theorem digitsValue_concat (ds : List Digit) (d : Digit) :
    digitsValue (ds ++ [d]) = digitsValue ds * 32 + d.toNat := by
  simp [digitsValue]

/-- Mathlib's numbers of digits have the least significant digit first. -/
theorem digitsValue_eq_ofDigits (ds : List Digit) :
    digitsValue ds = Nat.ofDigits 32 (ds.map BitVec.toNat).reverse := by
  simp [digitsValue, Nat.ofDigits_eq_foldr, List.foldl_map, Nat.add_comm, Nat.mul_comm]

theorem lt_of_mem_reverse_digits {ds : List Digit} {x : Nat}
    (hx : x ∈ (ds.map BitVec.toNat).reverse) : x < 32 := by
  obtain ⟨d, -, rfl⟩ := List.mem_map.1 (List.mem_reverse.1 hx)
  exact d.isLt

theorem digitsValue_cons (d : Digit) (ds : List Digit) :
    digitsValue (d :: ds) = 32 ^ ds.length * d.toNat + digitsValue ds := by
  simp [digitsValue_eq_ofDigits, Nat.ofDigits_append, Nat.add_comm]

theorem digitsValue_lt (ds : List Digit) : digitsValue ds < 32 ^ ds.length := by
  have h := Nat.ofDigits_lt_base_pow_length (by decide) fun _ => lt_of_mem_reverse_digits (ds := ds)
  rwa [← digitsValue_eq_ofDigits, List.length_reverse, List.length_map] at h

theorem digitsValue_injective {ds es : List Digit} (hlen : ds.length = es.length)
    (h : digitsValue ds = digitsValue es) : ds = es := by
  rw [digitsValue_eq_ofDigits, digitsValue_eq_ofDigits] at h
  have hrev := Nat.ofDigits_inj_of_len_eq (by decide) (by simpa using hlen)
    (fun _ => lt_of_mem_reverse_digits) (fun _ => lt_of_mem_reverse_digits) h
  exact List.map_injective_iff.2 (fun _ _ => BitVec.eq_of_toNat_eq) (List.reverse_injective hrev)

theorem digitsValue_zeros_append (n : Nat) (ds : List Digit) :
    digitsValue (List.replicate n 0#5 ++ ds) = digitsValue ds := by
  simp [digitsValue_eq_ofDigits, Nat.ofDigits_append_replicate_zero]

theorem digitsValue_lt_two_pow_60 {ds : List Digit} (hlen : ds.length ≤ 12) :
    digitsValue ds < 2 ^ 60 :=
  (digitsValue_lt ds).trans_le (Nat.pow_le_pow_right (by decide) hlen)

/-- Numbers below the weight of a digit decide the order only when the digits agree. -/
theorem mul_add_lt_mul_add_iff {weight x y : Nat} (hx : x < weight) (hy : y < weight) (d e : Nat) :
    weight * d + x < weight * e + y ↔ d < e ∨ d = e ∧ x < y := by
  obtain hlt | rfl | hgt := lt_trichotomy d e
  · have := (Nat.mul_add_lt_mul_of_lt_of_lt hlt hx).trans_eq (Nat.mul_comm e weight)
    omega
  · omega
  · have := (Nat.mul_add_lt_mul_of_lt_of_lt hgt hy).trans_eq (Nat.mul_comm d weight)
    omega

/-- The first digit where two strings differ outweighs all digits after it. -/
theorem digitsValue_lt_digitsValue_iff {ds es : List Digit} (hlen : ds.length = es.length) :
    digitsValue ds < digitsValue es ↔ ds.map BitVec.toNat < es.map BitVec.toNat := by
  induction ds generalizing es with
  | nil =>
    obtain rfl := List.eq_nil_of_length_eq_zero hlen.symm
    simp
  | cons d ds ih =>
    obtain ⟨e, es, rfl⟩ := List.exists_cons_of_length_eq_add_one hlen.symm
    have hlen' : ds.length = es.length := Nat.succ.inj hlen
    rw [digitsValue_cons, digitsValue_cons, hlen',
      mul_add_lt_mul_add_iff (hlen' ▸ digitsValue_lt ds) (digitsValue_lt es),
      BitVec.toNat_inj, ih hlen', List.map_cons, List.map_cons, List.cons_lt_cons_iff, BitVec.toNat_inj]

/-! ### Accumulation -/

/-- The OR of R144 never overlaps a set bit, so it adds. -/
theorem shl64_or_digit (n : Nat) (d : Digit) :
    shl64 (BitVec.ofNat 64 n) 5 ||| d.setWidth 64 = BitVec.ofNat 64 (n * 32 + d.toNat) := by
  have hadd : n * 32 + d.toNat = n <<< 5 ||| d.toNat := by
    rw [← Nat.shiftLeft_add_eq_or_of_lt d.isLt, Nat.shiftLeft_eq]
  have hshift : BitVec.ofNat 64 (n <<< 5) = shl64 (BitVec.ofNat 64 n) 5 := by
    apply BitVec.eq_of_toNat_eq
    simp [shl64, Nat.shiftLeft_eq]
  rw [hadd, BitVec.ofNat_or, hshift, BitVec.ofNat_toNat]

theorem b32accumulate_eq_ofNat (ds : List Digit) :
    b32accumulate ds = BitVec.ofNat 64 (digitsValue ds) :=
  List.foldl_hom (BitVec.ofNat 64) shl64_or_digit

theorem toNat_b32accumulate {ds : List Digit} (hlen : ds.length ≤ 12) :
    (b32accumulate ds).toNat = digitsValue ds := by
  rw [b32accumulate_eq_ofNat, BitVec.toNat_ofNat,
    Nat.mod_eq_of_lt ((digitsValue_lt_two_pow_60 hlen).trans (by decide))]

/-- Settles O51: no bit is lost in accumulating at most 12 digits. -/
theorem decodedOrderIsLexicographic : Obligations.DecodedOrderIsLexicographic := by
  intro ds es hlen h12
  rw [toNat_b32accumulate h12, toNat_b32accumulate (hlen ▸ h12)]
  exact digitsValue_lt_digitsValue_iff hlen

/-! ### The digits of a code -/

/-- The first `n` of the twelve digits B32E writes for a code (R141). -/
def codeDigits (v : Code) (n : Nat) : List Digit := (List.range n).map (digitAt v)

@[simp] theorem length_codeDigits (v : Code) (n : Nat) : (codeDigits v n).length = n := by
  simp [codeDigits]

theorem getElem?_codeDigits (v : Code) {n i : Nat} (hi : i < n) :
    (codeDigits v n)[i]? = some (digitAt v i) := by
  simp [codeDigits, hi]

theorem b32char_eq_of_codeDigits {v : Code} {i : Nat} {d : Digit} {b : Byte} (hi : i < 12)
    (hd : (codeDigits v 12)[i]? = some d) (hb : romEnc[d.toNat]? = some b) : b32char v i = b := by
  obtain rfl := Option.some.inj ((getElem?_codeDigits v hi).symm.trans hd)
  exact Option.some.inj ((getElem?_romEnc_digitAt v i).symm.trans hb)

/-- The first `n` digits name the bits from 59 down to `60 - 5n`. -/
theorem digitsValue_codeDigits (v : Code) {n : Nat} (hn : n ≤ 12) :
    digitsValue (codeDigits v n) = v.toNat / 2 ^ (60 - 5 * n) % 32 ^ n := by
  induction n with
  | zero => exact (Nat.mod_one _).symm
  | succ n ih =>
    have hlow : 2 ^ (60 - 5 * n) = 2 ^ (55 - 5 * n) * 32 := by
      rw [show 60 - 5 * n = 55 - 5 * n + 5 by omega, Nat.pow_add]
    have hcut : 60 - 5 * (n + 1) = 55 - 5 * n := by omega
    rw [codeDigits, List.range_succ, List.map_append, List.map_singleton, digitsValue_concat,
      ← codeDigits, ih (by omega), toNat_digitAt, hlow, ← Nat.div_div_eq_div_mul, hcut,
      Nat.pow_succ', Nat.mod_mul, Nat.add_comm, Nat.mul_comm 32]

theorem digitsValue_codeDigits_twelve (v : Code) :
    digitsValue (codeDigits v 12) = v.toNat % 2 ^ 60 := by
  rw [digitsValue_codeDigits v le_rfl, Nat.pow_zero, Nat.div_one]
  rfl

/-- Accumulating the digits of a code gives it back without its top four bits (R144). -/
theorem b32accumulate_codeDigits (v : Code) :
    b32accumulate (codeDigits v 12) = v &&& 0x0FFFFFFFFFFFFFFF#64 := by
  apply BitVec.eq_of_toNat_eq
  rw [toNat_b32accumulate (length_codeDigits v 12).le, digitsValue_codeDigits_twelve,
    BitVec.toNat_and]
  exact (Nat.and_two_pow_sub_one_eq_mod v.toNat 60).symm

/-- The digits B32E finds in an accumulated code are those accumulated, after zeros. -/
theorem codeDigits_b32accumulate {ds : List Digit} (hlen : ds.length ≤ 12) :
    codeDigits (b32accumulate ds) 12 = List.replicate (12 - ds.length) 0#5 ++ ds := by
  apply digitsValue_injective
  · simp [hlen]
  · rw [digitsValue_codeDigits_twelve, toNat_b32accumulate hlen, digitsValue_zeros_append,
      Nat.mod_eq_of_lt (digitsValue_lt_two_pow_60 hlen)]

/-! ### The text operand -/

theorem getElem?_text (s : State) {k : Fin 12} (hk : k.val < s.textLength) :
    s.text[k.val]? = some s.txt[k] := by
  simp only [State.text, State.textLength] at hk ⊢
  simp [hk]

theorem mem_text_iff {s : State} {b : Byte} :
    b ∈ s.text ↔ ∃ k : Fin 12, k.val < s.textLength ∧ s.txt[k] = b := by
  simp only [State.text, State.textLength, List.mem_take_iff_getElem, Fin.exists_iff,
    Vector.length_toList, Vector.getElem_toList, Fin.getElem_fin]
  constructor
  · rintro ⟨k, hk, rfl⟩
    exact ⟨k, by omega, by omega, rfl⟩
  · rintro ⟨k, h12, hk, rfl⟩
    exact ⟨k, by omega, rfl⟩

theorem b32digits?_text_eq_none_iff {s : State} : b32digits? s.text = none ↔ ¬ textValid s := by
  simp [b32digits?_eq_none_iff, b32digit?_eq_none_iff, mem_text_iff, textValid, charValid]

theorem textValid_iff {s : State} : textValid s ↔ ∃ ds, b32digits? s.text = some ds := by
  rw [← Option.ne_none_iff_exists', Ne, b32digits?_text_eq_none_iff, not_not]

/-- Each place of the text holds the character of its digit. -/
theorem getElem?_digits {s : State} {ds : List Digit} (hds : b32digits? s.text = some ds)
    {k : Fin 12} (hk : k.val < s.textLength) :
    ∃ d, ds[k.val]? = some d ∧ romEnc[d.toNat]? = some s.txt[k] := by
  have hmap := congrArg (·[k.val]?) (b32digits?_eq_some_iff.1 hds)
  simp only [List.getElem?_map, getElem?_text s hk, Option.map_some] at hmap
  obtain ⟨d, hd, hchar⟩ := Option.map_eq_some_iff.1 hmap.symm
  exact ⟨d, hd, b32digit?_eq_some_iff.1 hchar.symm⟩

theorem length_digits {s : State} {ds : List Digit} (hlen : s.textLength ≤ 12)
    (hds : b32digits? s.text = some ds) : ds.length = s.textLength := by
  have h := congrArg List.length (b32digits?_eq_some_iff.1 hds)
  rwa [List.length_map, List.length_map, length_text hlen, eq_comm] at h

/-! ### The two commands -/

theorem exec_b32d_of_digits {s : State} {ds : List Digit} (hlen : s.textLength ≤ 12)
    (hds : b32digits? s.text = some ds) :
    exec .b32d s = .next ({ s with code := b32accumulate ds }.setFC .ok) :=
  (if_neg hlen.not_gt).trans (by rw [b32dec?, hds]; rfl)

theorem exec_b32d_of_gt {s : State} (h : 12 < s.textLength) :
    exec .b32d s = .next (s.setFC .invalidBitCount) :=
  if_pos h

theorem exec_b32d_of_invalid {s : State} (hlen : s.textLength ≤ 12) (hinv : ¬ textValid s) :
    exec .b32d s = .next (s.setFC .invalidBase32) :=
  (if_neg hlen.not_gt).trans (by rw [b32dec?, b32digits?_text_eq_none_iff.2 hinv]; rfl)

/-- The state with the text B32E writes (R142). -/
def State.withBase32 (s : State) : State :=
  { s with txt := b32text s.code 12, tlen := 12#4 }

theorem exec_b32e (s : State) : exec .b32e s = .next (s.withBase32.setFC .ok) := rfl

theorem State.withBase32_txt (s : State) (i : Fin 12) : s.withBase32.txt[i] = b32char s.code i := by
  rw [State.withBase32, getElem_b32text, if_pos i.isLt]

theorem text_withBase32 (s : State) : s.withBase32.text = (List.range 12).map (b32char s.code) :=
  rfl

theorem b32digits?_text_withBase32 (s : State) :
    b32digits? s.withBase32.text = some (codeDigits s.code 12) := by
  rw [text_withBase32, b32digits?_eq_some_iff, codeDigits, List.map_map, List.map_map]
  exact List.map_congr_left fun i _ => b32digit?_eq_some_iff.2 (getElem?_romEnc_digitAt s.code i)

/-- Settles O47: each place holds the character of its digit. -/
theorem b32eWritesTwelveDigits : Obligations.B32eWritesTwelveDigits := fun s =>
  ⟨_, exec_b32e s, rfl, succeeded_setFC_ok _, rfl, fun i => by
    rw [← toNat_digitAt, getElem?_romEnc_digitAt, State.setFC_txt, State.withBase32_txt]⟩

/-- Settles O48: a valid text has its digits, which are accumulated without loss; the other two
texts are refused. -/
theorem b32dReadsTheDigits : Obligations.B32dReadsTheDigits := by
  intro s
  refine ⟨fun hlen hvalid => ?_,
    fun hlong => ⟨_, exec_b32d_of_gt hlong, rfl, State.fc_setFC .invalidBitCount s⟩,
    fun hlen hinv => ⟨_, exec_b32d_of_invalid hlen hinv, rfl, State.fc_setFC .invalidBase32 s⟩⟩
  obtain ⟨ds, hds⟩ := textValid_iff.1 hvalid
  have hlength : ds.length = s.textLength := length_digits hlen hds
  have hvalue : (b32accumulate ds).toNat = digitsValue ds :=
    toNat_b32accumulate (hlength.trans_le hlen)
  refine ⟨_, ds, exec_b32d_of_digits hlen hds, rfl, succeeded_setFC_ok _, hlength,
    fun k => getElem?_digits hds, hvalue, ?_⟩
  calc (b32accumulate ds).toNat = digitsValue ds := hvalue
    _ < 32 ^ s.textLength := hlength ▸ digitsValue_lt ds
    _ = 2 ^ (5 * s.textLength) := (Nat.pow_mul 2 5 _).symm

/-- Settles O49: B32D reads back the digits B32E wrote. -/
theorem b32dAfterB32eKeepsTheLow60Bits : Obligations.B32dAfterB32eKeepsTheLow60Bits := fun s =>
  ⟨_, _, exec_b32e s, exec_b32d_of_digits (s := s.withBase32.setFC .ok) le_rfl
    (b32digits?_text_withBase32 s), State.fc_setFC .ok _, b32accumulate_codeDigits s.code⟩

/-- Settles O50: B32E writes the digits B32D accumulated, after zeros. -/
theorem b32eAfterB32dRestoresTheText : Obligations.B32eAfterB32dRestoresTheText := by
  intro s hlen hvalid
  obtain ⟨ds, hds⟩ := textValid_iff.1 hvalid
  have hlength : ds.length = s.textLength := length_digits hlen hds
  have hdigits := codeDigits_b32accumulate (hlength.trans_le hlen)
  rw [hlength] at hdigits
  refine ⟨_, _, exec_b32d_of_digits hlen hds, exec_b32e _, fun i => ?_⟩
  rw [State.setFC_txt, State.withBase32_txt]
  refine ⟨fun hi => b32char_eq_of_codeDigits i.isLt (d := 0#5) ?_ rfl, fun k hk => ?_⟩
  · rw [State.setFC_code, hdigits, List.getElem?_append_left (by simpa using hi),
      List.getElem?_replicate_of_lt hi]
  · obtain ⟨d, hd, hchar⟩ := getElem?_digits hds (k := k) (by omega)
    refine b32char_eq_of_codeDigits i.isLt ?_ hchar
    rw [State.setFC_code, hdigits, List.getElem?_append_right (by simp [hk]), List.length_replicate,
      hk, Nat.add_sub_cancel_left, hd]

end Sys2Proof.Machine

/-! ### Proofs of the geohash family: GEOHASH, LOCATE, and how near the second ends to the first -/

namespace Sys2Proof.Machine

/-! ### The two commands -/

/-- The state with the code and the text GEOHASH writes for a count it accepts (R161). -/
def State.withGeohash (b : Nat) (s : State) : State :=
  { s.withEncoded with
    txt := b32text (shr64 s.withEncoded.code 4) (b / 5)
    tlen := BitVec.ofNat 4 (b / 5) }

theorem exec_geohash_of_accepted {b : Nat} (h5 : 5 ≤ b) (h60 : b ≤ 60) (s : State) :
    exec (.geohash b) s = .next ((s.withGeohash b).setFC .ok) :=
  if_neg (not_or.2 ⟨h5.not_gt, h60.not_gt⟩)

@[simp] theorem State.withGeohash_code (b : Nat) (s : State) :
    (s.withGeohash b).code = s.withEncoded.code := rfl

theorem State.withGeohash_tlen {b : Nat} (h60 : b ≤ 60) (s : State) :
    (s.withGeohash b).tlen.toNat = b / 5 := by
  rw [State.withGeohash, BitVec.toNat_ofNat, Nat.mod_eq_of_lt (by omega)]

theorem State.withGeohash_txt_of_lt {b : Nat} (s : State) {i : Fin 12} (hi : i.val < b / 5) :
    (s.withGeohash b).txt[i] = b32char (shr64 s.withEncoded.code 4) i := by
  rw [State.withGeohash, getElem_b32text, if_pos hi]

theorem State.withGeohash_txt_of_ge {b : Nat} (s : State) {i : Fin 12} (hi : b / 5 ≤ i.val) :
    (s.withGeohash b).txt[i] = 0x00#8 := by
  rw [State.withGeohash, getElem_b32text, if_neg hi.not_gt]

/-- The state after LOCATE has read a text of `n` characters that decodes to `v` (R163). -/
def State.withLocation (v : Code) (n : Nat) (s : State) : State :=
  { s.withDecoded (lalign v (5 * n)) with code := v, nbits := BitVec.ofNat 16 (5 * n) }

theorem exec_locate_of_digits {s : State} {ds : List Digit} (h1 : 1 ≤ s.textLength)
    (h12 : s.textLength ≤ 12) (hds : b32digits? s.text = some ds) :
    exec .locate s = .next ((s.withLocation (b32accumulate ds) s.textLength).setFC .ok) :=
  (if_neg (not_or.2 ⟨h1.not_gt, h12.not_gt⟩)).trans (by rw [b32dec?, hds]; rfl)

theorem exec_locate_of_refused {s : State} (h : s.textLength < 1 ∨ 12 < s.textLength) :
    exec .locate s = .next (s.setFC .invalidBitCount) :=
  if_pos h

theorem exec_locate_of_invalid {s : State} (h1 : 1 ≤ s.textLength) (h12 : s.textLength ≤ 12)
    (hinv : ¬ textValid s) : exec .locate s = .next (s.setFC .invalidBase32) :=
  (if_neg (not_or.2 ⟨h1.not_gt, h12.not_gt⟩)).trans
    (by rw [b32dec?, b32digits?_text_eq_none_iff.2 hinv]; rfl)

theorem toNat_nbits_withLocation {n : Nat} (hn : n ≤ 12) (v : Code) (s : State) :
    (s.withLocation v n).nbits.toNat = 5 * n := by
  rw [State.withLocation, BitVec.toNat_ofNat, Nat.mod_eq_of_lt (by omega)]

/-! ### The text GEOHASH writes -/

/-- The shift by 4 puts code bits 63:4 where base32 reads bits 59:0 (R160). -/
theorem toNat_digitAt_shr64 (c : Code) {i : Nat} (hi : i < 12) :
    (digitAt (shr64 c 4) i).toNat = c.toNat / 2 ^ (59 - 5 * i) % 32 := by
  rw [toNat_digitAt, shr64, BitVec.toNat_ushiftRight, Nat.shiftRight_eq_div_pow,
    Nat.div_div_eq_div_mul, ← Nat.pow_add, show 4 + (55 - 5 * i) = 59 - 5 * i by omega]

/-- Settles O52: the writes are MENC's, and each place of the text holds the character of its
digit. -/
theorem geohashWritesThePrefixOfTheCode : Obligations.GeohashWritesThePrefixOfTheCode := by
  refine fun b s => ⟨fun h5 h60 => ?_, fun hb => ⟨_, exec_geohash_of_refused hb s, rfl,
    State.fc_setFC .invalidBitCount s⟩⟩
  refine ⟨_, _, exec_geohash_of_accepted h5 h60 s, rfl, rfl, State.withGeohash_tlen h60 s,
    succeeded_setFC_ok (s.withGeohash b), (orDraw_cases _ _).1, (orDraw_cases _ _).1, rfl,
    fun i => ⟨fun hi => ?_, State.withGeohash_txt_of_ge s⟩⟩
  rw [State.setFC_code, State.setFC_txt, State.withGeohash_code, State.withGeohash_txt_of_lt s hi,
    ← toNat_digitAt_shr64 _ i.isLt, getElem?_romEnc_digitAt]

/-- Settles O53: a place in both texts holds the character of one digit of one code. -/
theorem geohashOfFewerBitsIsAPrefix : Obligations.GeohashOfFewerBitsIsAPrefix := by
  intro b b' s h5 hle h60
  refine ⟨_, _, exec_geohash_of_accepted h5 (hle.trans h60) s,
    exec_geohash_of_accepted (h5.trans hle) h60 s, ?_⟩
  simp only [State.setFC_tlen, State.setFC_txt, State.withGeohash_tlen (hle.trans h60),
    State.withGeohash_tlen h60]
  have hchars : b / 5 ≤ b' / 5 := Nat.div_le_div_right hle
  refine ⟨hchars, fun i hi => ?_⟩
  rw [State.withGeohash_txt_of_lt s hi, State.withGeohash_txt_of_lt s (hi.trans_le hchars)]

/-! ### LOCATE in two commands -/

/-- Settles O54: B32D and MDEC write in turn what LOCATE writes at once; the two other texts are
refused. -/
theorem locateIsB32dThenMdecThenNbits : Obligations.LocateIsB32dThenMdecThenNbits := by
  refine fun s => ⟨fun h1 h12 hvalid => ?_,
    fun hlen => ⟨_, exec_locate_of_refused hlen, rfl, State.fc_setFC .invalidBitCount s⟩,
    fun h1 h12 hinv => ⟨_, exec_locate_of_invalid h1 h12 hinv, rfl,
      State.fc_setFC .invalidBase32 s⟩⟩
  obtain ⟨ds, hds⟩ := textValid_iff.1 hvalid
  refine ⟨_, _, exec_b32d_of_digits h12 hds, exec_mdec_of_le (by omega) _, ?_,
    State.fc_setFC .ok _, ?_⟩
  · rw [exec_locate_of_digits h1 h12 hds]
    exact congrArg Host.Outcome.next (State.setFC_setFC .ok .ok _).symm
  · exact (State.statusReserved_setFC .ok _).trans (State.statusReserved_setFC .ok _)

/-! ### LOCATE of the text GEOHASH wrote -/

/-- The text operand is the written characters of a code. -/
theorem text_of_txt_eq_b32text {s : State} {v : Code} {n : Nat} (hn : n ≤ 12)
    (htxt : s.txt = b32text v n) (hlen : s.tlen.toNat = n) :
    s.text = (List.range n).map (b32char v) := by
  rw [State.text, htxt, hlen]
  refine List.ext_getElem (by simp [hn]) fun i hi hi' => ?_
  have hin : i < n := by simpa using hi'
  simp [b32text, hin]

/-- Written characters read back as the digits of the code they were written from. -/
theorem b32digits?_map_b32char (v : Code) (n : Nat) :
    b32digits? ((List.range n).map (b32char v)) = some (codeDigits v n) := by
  rw [b32digits?_eq_some_iff, codeDigits, List.map_map, List.map_map]
  exact List.map_congr_left fun i _ => b32digit?_eq_some_iff.2 (getElem?_romEnc_digitAt v i)

/-- The first `n` digits of the shifted code accumulate to the top `5 * n` bits of the code. -/
theorem b32accumulate_codeDigits_shr64 (c : Code) {n : Nat} (hn : n ≤ 12) :
    b32accumulate (codeDigits (shr64 c 4) n) = shr64 c (64 - 5 * n) := by
  have htop : c.toNat / 2 ^ (64 - 5 * n) < 32 ^ n := by
    rw [Nat.div_lt_iff_lt_mul (by positivity), show 32 = 2 ^ 5 by rfl, ← Nat.pow_mul,
      ← Nat.pow_add, show 5 * n + (64 - 5 * n) = 64 by omega]
    exact c.isLt
  apply BitVec.eq_of_toNat_eq
  rw [toNat_b32accumulate ((length_codeDigits _ n).trans_le hn), digitsValue_codeDigits _ hn, shr64,
    shr64, BitVec.toNat_ushiftRight, BitVec.toNat_ushiftRight, Nat.shiftRight_eq_div_pow,
    Nat.shiftRight_eq_div_pow, Nat.div_div_eq_div_mul, ← Nat.pow_add,
    show 4 + (60 - 5 * n) = 64 - 5 * n by omega, Nat.mod_eq_of_lt htop]

/-- LOCATE after GEOHASH locates the top `5 * floor(b/5)` bits of the code (R164). -/
theorem exec_locate_withGeohash {b : Nat} (h5 : 5 ≤ b) (h60 : b ≤ 60) (s : State) :
    exec .locate ((s.withGeohash b).setFC .ok) =
      .next ((((s.withGeohash b).setFC .ok).withLocation
        (shr64 s.withEncoded.code (64 - 5 * (b / 5))) (b / 5)).setFC .ok) := by
  have hlen : ((s.withGeohash b).setFC .ok).textLength = b / 5 := State.withGeohash_tlen h60 s
  have hdigits : b32digits? ((s.withGeohash b).setFC .ok).text =
      some (codeDigits (shr64 s.withEncoded.code 4) (b / 5)) := by
    rw [text_of_txt_eq_b32text (by omega) rfl hlen, b32digits?_map_b32char]
  rw [exec_locate_of_digits (by omega) (by omega) hdigits, hlen,
    b32accumulate_codeDigits_shr64 _ (by omega)]

/-- Settles O55: what LOCATE decodes is the alignment of the code's own top bits, the truncated
code. -/
theorem geohashThenLocateTruncatesTheCode : Obligations.GeohashThenLocateTruncatesTheCode := by
  intro b s h5 h60
  have halign := lalign_shr64 s.withEncoded.code (5 * (b / 5))
  refine ⟨_, _, _, exec_geohash_of_accepted h5 h60 s, exec_locate_withGeohash h5 h60 s,
    exec_trunc_of_le (by omega) _, rfl, rfl, halign, congrArg latOfCode halign,
    congrArg lonOfCode halign, congrArg (dequantLat <| latOfCode ·) halign,
    congrArg (dequantLon <| lonOfCode ·) halign, ?_⟩
  rw [State.setFC_nbits, toNat_nbits_withLocation (by omega)]

/-! ### How near the located point is to the input -/

section Axis

variable {off span v : Code} {o s : Nat} {k : Int}

theorem IsAxis.offset_lt (h : IsAxis off span o s) : o < 256 := by
  have := h.span_eq
  have := h.span_lt
  omega

/-- Every in-range input, those below the lower end included, is quantised to less than one step
from its exact scaled value (R83, R87). -/
theorem IsAxis.exists_quant?_within_one_step (h : IsAxis off span o s) (hk : realUnits? v = some k)
    (hlow : -s * (fpOne : Int) < (k + o * fpOne) * 2 ^ 32)
    (hin : -o * (fpOne : Int) ≤ k → quant? v off span ≠ none) :
    ∃ q, quant? v off span = some q ∧
      |(k + o * fpOne) * 2 ^ 32 - q.toNat * (s * fpOne)| < s * (fpOne : Int) := by
  by_cases hlo : -o * (fpOne : Int) ≤ k
  · obtain ⟨q, hq⟩ := Option.ne_none_iff_exists'.1 (hin hlo)
    obtain ⟨hupper, hlower⟩ := h.quant?_between hk hlo hq
    exact ⟨q, hq, abs_lt.2 ⟨by linarith, by linarith⟩⟩
  · have hbelow : k < -o * fpOne := not_le.1 hlo
    have hspan : (0 : Int) < s * fpOne := by exact_mod_cast Nat.mul_pos h.span_pos fpOne_pos
    refine ⟨0#32, (h.quant?_below hk hbelow).1.2 hlow, ?_⟩
    rw [BitVec.toNat_ofNat, Nat.zero_mod, Nat.cast_zero, zero_mul, sub_zero]
    exact abs_lt.2 ⟨by linarith, by linarith⟩

/-- A number less than one step from its projection `q` is within the bound `span / 2^j` of the
point of `q` cut to its top `j` bits: the cut takes at least one step less than that bound. -/
theorem IsAxis.abs_sub_dequant_cut_le (h : IsAxis off span o s) {q q' : Fixed} {j : Nat}
    (hj : j ≤ 32) (hcut : q'.toNat = q.toNat / 2 ^ (32 - j) * 2 ^ (32 - j))
    (hstep : |(k + o * fpOne) * 2 ^ 32 - q.toNat * (s * fpOne)| < s * (fpOne : Int)) :
    ∃ u e, realUnits? (dequant q' s o) = some u ∧ realUnits? (f64 s j) = some e ∧
      |k - u| ≤ e := by
  have hs512 := h.span_lt
  obtain ⟨u, hu, hexact⟩ := realUnits_dequant q' (hs512.le.trans (by decide))
    (h.offset_lt.le.trans (by decide))
  obtain ⟨e, he, hbound⟩ := realUnits_f64_scaled (k := s) (e := j)
    (hs512.trans (by decide)) (hj.trans (by decide))
  have hsplit : q.toNat = q'.toNat + q.toNat % 2 ^ (32 - j) := by rw [hcut, Nat.div_add_mod']
  have hlost : q.toNat % 2 ^ (32 - j) + 1 ≤ 2 ^ (32 - j) := Nat.mod_lt _ (by positivity)
  generalize q.toNat % 2 ^ (32 - j) = r at hsplit hlost
  have hdiff : (k - u) * 2 ^ 32 =
      ((k + o * fpOne) * 2 ^ 32 - q.toNat * (s * fpOne)) + r * (s * fpOne) := by
    rw [sub_mul, hexact, hsplit]
    push_cast
    ring
  have hscaled : |k - u| * 2 ^ 32 < e * 2 ^ 32 := by
    calc |k - u| * 2 ^ 32 = |(k - u) * 2 ^ 32| := by rw [abs_mul, abs_pow, Nat.abs_ofNat]
      _ ≤ |(k + o * fpOne) * 2 ^ 32 - q.toNat * (s * fpOne)| + |r * (s * (fpOne : Int))| :=
          hdiff ▸ abs_add_le _ _
      _ < s * fpOne + r * (s * fpOne) := by
          rw [abs_of_nonneg (a := r * (s * (fpOne : Int))) (by positivity)]
          exact Int.add_lt_add_right hstep _
      _ = (r + 1 : Nat) * (s * fpOne) := by push_cast; ring
      _ ≤ (2 ^ (32 - j) : Nat) * (s * fpOne) :=
          mul_le_mul_of_nonneg_right (by exact_mod_cast hlost) (by positivity)
      _ = e * 2 ^ 32 := by
          rw [← hbound, Nat.cast_pow, Nat.cast_ofNat, mul_comm, mul_assoc, ← pow_add,
            Nat.add_sub_cancel' hj]
  exact ⟨u, e, hu, he, (lt_of_mul_lt_mul_right hscaled (by decide)).le⟩

end Axis

theorem errorOf_of_accepted {b : Nat} (h1 : 1 ≤ b) (h60 : b ≤ 60) :
    errorOf b = (f64 180 (b / 2), f64 360 (b - b / 2)) :=
  if_pos ⟨h1, h60⟩

/-- Settles O56: each coordinate is quantised within one step and then cut to its share of the
bits, whose cell size is the bound. -/
theorem geohashLocateRoundTripIsWithinTheErrorBound :
    Obligations.GeohashLocateRoundTripIsWithinTheErrorBound := by
  intro n s la lo h1 h12 hla hlo hlatLow hlatHigh hlatNe hlonLow hlonHigh hlonNe
  obtain ⟨hlatNone, hlonNone, -⟩ := exactlyOneInDomainInputOfEachKindIsOutOfRange
  obtain ⟨qlat, hqlat, hlatStep⟩ := isAxis_latitude.exists_quant?_within_one_step hla hlatLow
    fun hge => mt (hlatNone s.lat la hla hge hlatHigh).1 hlatNe
  obtain ⟨qlon, hqlon, hlonStep⟩ := isAxis_longitude.exists_quant?_within_one_step hlo hlonLow
    fun hge => mt (hlonNone s.lon lo hlo hge hlonHigh).1 hlonNe
  obtain ⟨t, u, -, hgeohash, hlocate, -, -, -, -, -, -, hlat, hlon, hnbits⟩ :=
    geohashThenLocateTruncatesTheCode (5 * n) s (by omega) (by omega)
  rw [Nat.mul_div_cancel_left n (by decide)] at hlat hlon hnbits
  have hcode : t.code = interleave qlat qlon := by
    obtain rfl := Host.Outcome.next.inj
      ((exec_geohash_of_accepted (by omega) (by omega) s).symm.trans hgeohash)
    exact congrArg₂ interleave ((orDraw_cases _ _).1 qlat hqlat) ((orDraw_cases _ _).1 qlon hqlon)
  rw [hcode] at hlat hlon
  have hlatCut := toNat_latOfCode_and_tmask (interleave qlat qlon) (5 * n)
  have hlonCut := toNat_lonOfCode_and_tmask (interleave qlat qlon) (5 * n)
  rw [latOfCode_interleave] at hlatCut
  rw [lonOfCode_interleave] at hlonCut
  obtain ⟨la', ea, hla', hea, hlatNear⟩ :=
    isAxis_latitude.abs_sub_dequant_cut_le (by omega) hlatCut hlatStep
  obtain ⟨lo', eo, hlo', heo, hlonNear⟩ :=
    isAxis_longitude.abs_sub_dequant_cut_le (by omega) hlonCut hlonStep
  refine ⟨t, u, _, la', lo', ea, eo, hgeohash, hlocate, rfl, hnbits, hlat ▸ hla', hlon ▸ hlo',
    ?_, ?_, hlatNear, hlonNear⟩
  · rw [State.setFC_elat, errorOf_of_accepted (by omega) (by omega)]
    exact hea
  · rw [State.setFC_elon, errorOf_of_accepted (by omega) (by omega)]
    exact heo

end Sys2Proof.Machine

/-! ### Proofs of the precision family: BITS, PREC and ERR -/

namespace Sys2Proof.Machine

/-! ### The three commands -/

theorem exec_bits (p : Nat) (s : State) :
    exec (.bits p) s = .next ({ s with nbits := BitVec.ofNat 16 (bitsOf p) }.setFC .ok) := rfl

theorem exec_prec (b : Nat) (s : State) :
    exec (.prec b) s = .next ({ s with nbits := BitVec.ofInt 16 (precOf b) }.setFC .ok) := rfl

theorem exec_err (b : Nat) (s : State) :
    exec (.err b) s =
      .next ({ s with elat := (errorOf b).1, elon := (errorOf b).2 }.setFC .ok) := rfl

/-! ### Levels and bit counts -/

/-- The two formulas are inverse (R182). -/
theorem precOf_bitsOf (p : Nat) : precOf (bitsOf p) = p := by
  rw [precOf, bitsOf, Nat.mul_div_cancel_left _ (by decide)]
  omega

theorem toNat_ofNat_bitsOf {p : Nat} (hp : p ≤ 127) :
    (BitVec.ofNat 16 (bitsOf p)).toNat = 4 * (p + 6) := by
  rw [bitsOf, BitVec.toNat_ofNat, Nat.mod_eq_of_lt (by omega)]

theorem toInt_ofNat_bitsOf {p : Nat} (hp : p ≤ 127) :
    (BitVec.ofNat 16 (bitsOf p)).toInt = 4 * (p + 6) := by
  have hnat := toNat_ofNat_bitsOf hp
  rw [BitVec.toInt_eq_toNat_of_lt (by omega), hnat]
  push_cast
  rfl

theorem toInt_ofInt_precOf {b : Nat} (hb : b ≤ 127) :
    (BitVec.ofInt 16 (precOf b)).toInt = (b / 4 : Nat) - 6 := by
  rw [precOf, BitVec.toInt_ofInt_eq_self (by decide) (by omega) (by omega)]

/-- Settles O57: every count and every level of an immediate fits the 16 bits of `NBITS`. -/
theorem bitsAndPrecWriteTheirFormulas : Obligations.BitsAndPrecWriteTheirFormulas :=
  fun imm s himm => ⟨⟨_, exec_bits imm s, rfl, succeeded_setFC_ok _, toInt_ofNat_bitsOf himm⟩,
    ⟨_, exec_prec imm s, rfl, succeeded_setFC_ok _, toInt_ofInt_precOf himm⟩⟩

/-- Settles O58: PREC reads the count BITS wrote, and the two formulas are inverse. -/
theorem precInvertsBits : Obligations.PrecInvertsBits := by
  intro p s hp
  have hcount : (BitVec.ofNat 16 (bitsOf p)).toNat = 4 * (p + 6) := toNat_ofNat_bitsOf (by omega)
  refine ⟨_, _, exec_bits p s, hcount.trans_le (by omega), exec_prec _ _, ?_⟩
  calc (BitVec.ofInt 16 (precOf (BitVec.ofNat 16 (bitsOf p)).toNat)).toNat
      = (BitVec.ofInt 16 (precOf (bitsOf p))).toNat := by rw [hcount, bitsOf]
    _ = (BitVec.ofNat 16 p).toNat := by rw [precOf_bitsOf, BitVec.ofInt_natCast]
    _ = p := Nat.mod_eq_of_lt (by omega)

/-! ### The error bounds -/

theorem toNat_append_eq_add {m n : Nat} (x : BitVec m) (y : BitVec n) :
    (x ++ y).toNat = x.toNat * 2 ^ n + y.toNat := by
  rw [BitVec.toNat_append, ← Nat.shiftLeft_add_eq_or_of_lt y.isLt, Nat.shiftLeft_eq]

/-- The three fields of an `f64` pattern as one number. The real is a normal
binary64 number, so the exponent field does not wrap. -/
theorem toNat_f64 {k : Int} {e : Nat} (h0 : k ≠ 0) (hk : k.natAbs < 2 ^ 53) (he : e ≤ 1022) :
    (f64 k e).toNat =
      ((decide (k < 0)).toNat * 2 ^ 11 + (k.natAbs.log2 + 1023 - e)) * 2 ^ 52 +
        k.natAbs * 2 ^ (52 - k.natAbs.log2) % 2 ^ 52 := by
  have hm : k.natAbs ≠ 0 := Int.natAbs_ne_zero.2 h0
  have hlog : k.natAbs.log2 < 53 := (Nat.log2_lt hm).2 hk
  unfold f64
  simp only [hm, if_false]
  rw [toNat_append_eq_add, toNat_append_eq_add, BitVec.toNat_ofBool, BitVec.toNat_ofNat,
    BitVec.toNat_ofNat, Nat.mod_eq_of_lt (a := k.natAbs.log2 + 1023 - e) (by omega)]

/-- Halving `e` times takes `e` from the exponent field (R184). -/
theorem toNat_f64_eq_sub {k : Int} {e : Nat} (h0 : k ≠ 0) (hk : k.natAbs < 2 ^ 53)
    (he : e ≤ 1022) : (f64 k e).toNat = (f64 k 0).toNat - e * 2 ^ 52 := by
  rw [toNat_f64 h0 hk he, toNat_f64 h0 hk (Nat.zero_le _)]
  omega

theorem f64_180_zero : f64 180 0 = pattern180 := by decide

theorem f64_360_zero : f64 360 0 = pattern360 := by decide

theorem errorOf_of_outside {b : Nat} (h : b = 0 ∨ 60 < b) :
    errorOf b = (nanPattern, nanPattern) :=
  if_neg (show ¬ (1 ≤ b ∧ b ≤ 60) by omega)

/-- Settles O59: inside the range the two reals are exact and each halving shows in the exponent
field; outside it both patterns are `NAN_PATTERN`. -/
theorem errWritesTheBoundsOrNaN : Obligations.ErrWritesTheBoundsOrNaN := by
  intro b s
  refine ⟨_, exec_err b s, rfl, succeeded_setFC_ok _, fun h1 h60 => ?_, fun hout => ?_⟩
  · rw [State.setFC_elat, State.setFC_elon, errorOf_of_accepted h1 h60]
    refine ⟨realUnits_f64_scaled (by decide) (by omega),
      realUnits_f64_scaled (by decide) (by omega), ?_, ?_⟩
    · rw [toNat_f64_eq_sub (by decide) (by decide) (by omega), f64_180_zero]
      rfl
    · rw [toNat_f64_eq_sub (by decide) (by decide) (by omega), f64_360_zero]
      rfl
  · rw [State.setFC_elat, State.setFC_elon, errorOf_of_outside hout]
    exact ⟨isNaN_nanOf _ _, isNaN_nanOf _ _⟩

end Sys2Proof.Machine

/-! ### Proofs of the exceptions family: which check a word fails, and what a fault leaves -/

namespace Sys2Proof.Machine

/-! ### The checks of a command, in the order of R206 -/

/-- The conditions of R201, under which a command refuses its bit count or the length of the text. -/
def refusesCount (i : Instr) (s : State) : Prop :=
  match i with
  | .geohash imm => imm < 5 ∨ imm > 60
  | .locate => s.textLength = 0 ∨ s.textLength > 12
  | .b32d => s.textLength > 12
  | .mdec imm | .trunc imm => imm > 64
  | _ => False

/-- The condition of R202, in the order of R206: a command that reads the text accepts its length and
finds a character outside the alphabet. -/
def refusesText (i : Instr) (s : State) : Prop :=
  (i = .b32d ∨ i = .locate) ∧ ¬ refusesCount i s ∧ ¬ textValid s

theorem textValid_of_not_refused {i : Instr} {s : State} (hi : i = .b32d ∨ i = .locate)
    (hcount : ¬ refusesCount i s) (htext : ¬ refusesText i s) : textValid s :=
  by_contra fun hinv => htext ⟨hi, hcount, hinv⟩

theorem exec_of_refusesCount {i : Instr} {s : State} (h : refusesCount i s) :
    exec i s = .next (s.setFC .invalidBitCount) := by
  cases i with
  | geohash imm => exact exec_geohash_of_refused h s
  | locate => exact exec_locate_of_refused (h.imp_left Nat.lt_one_iff.2)
  | b32d => exact exec_b32d_of_gt h
  | mdec imm => exact exec_mdec_of_gt h s
  | trunc imm => exact exec_trunc_of_gt h s
  | _ => exact h.elim

/-- The lengths LOCATE accepts. -/
theorem not_refusesCount_locate_iff {s : State} :
    ¬ refusesCount .locate s ↔ 1 ≤ s.textLength ∧ s.textLength ≤ 12 := by
  simp only [refusesCount]
  omega

/-- The lengths B32D accepts. -/
theorem not_refusesCount_b32d_iff {s : State} :
    ¬ refusesCount .b32d s ↔ s.textLength ≤ 12 := Nat.not_lt

theorem exec_of_refusesText {i : Instr} {s : State} (h : refusesText i s) :
    exec i s = .next (s.setFC .invalidBase32) := by
  obtain ⟨rfl | rfl, hcount, hinv⟩ := h
  · exact exec_b32d_of_invalid (not_refusesCount_b32d_iff.1 hcount) hinv
  · obtain ⟨h1, h12⟩ := not_refusesCount_locate_iff.1 hcount
    exact exec_locate_of_invalid h1 h12 hinv

/-- A command that passes its checks succeeds. -/
theorem exec_of_not_refused {i : Instr} {s : State} (hcount : ¬ refusesCount i s)
    (htext : ¬ refusesText i s) : ∃ t : State, exec i s = .next (t.setFC .ok) := by
  cases i with
  | geohash imm =>
    obtain ⟨h5, h60⟩ := not_or.1 hcount
    exact ⟨_, exec_geohash_of_accepted (Nat.le_of_not_lt h5) (Nat.le_of_not_lt h60) s⟩
  | locate =>
    obtain ⟨h1, h12⟩ := not_refusesCount_locate_iff.1 hcount
    obtain ⟨ds, hds⟩ := textValid_iff.1 (textValid_of_not_refused (.inr rfl) hcount htext)
    exact ⟨_, exec_locate_of_digits h1 h12 hds⟩
  | b32d =>
    obtain ⟨ds, hds⟩ := textValid_iff.1 (textValid_of_not_refused (.inl rfl) hcount htext)
    exact ⟨_, exec_b32d_of_digits (not_refusesCount_b32d_iff.1 hcount) hds⟩
  | mdec imm => exact ⟨_, exec_mdec_of_le (Nat.le_of_not_lt hcount) s⟩
  | trunc imm => exact ⟨_, exec_trunc_of_le (Nat.le_of_not_lt hcount) s⟩
  | _ => exact ⟨_, rfl⟩

/-! ### The code a command and an issued word end with -/

theorem State.fc_setFC_eq_iff {c d : FaultCode} {s : State} : (s.setFC c).fc = d.toBits ↔ c = d := by
  rw [State.fc_setFC]
  exact ⟨FaultCode.toBits_injective, congrArg FaultCode.toBits⟩

/-- The code of a command is the first check it fails (R200 to R202, R206). -/
theorem exec_code (i : Instr) (s : State) :
    ∃ (t : State) (c : FaultCode), exec i s = .next (t.setFC c) ∧
      (c = .invalidBitCount ↔ refusesCount i s) ∧ (c = .invalidBase32 ↔ refusesText i s) ∧
      c ≠ .illegalCommand := by
  by_cases hcount : refusesCount i s
  · have htext : ¬ refusesText i s := fun ⟨_, haccepted, _⟩ => haccepted hcount
    exact ⟨s, .invalidBitCount, exec_of_refusesCount hcount, by simp [hcount], by simp [htext],
      by decide⟩
  by_cases htext : refusesText i s
  · exact ⟨s, .invalidBase32, exec_of_refusesText htext, by simp [hcount], by simp [htext],
      by decide⟩
  · obtain ⟨t, hexec⟩ := exec_of_not_refused hcount htext
    exact ⟨t, .ok, hexec, by simp [hcount], by simp [htext], by decide⟩

/-- The code of an issued word: 3 for a reserved word, and otherwise the code of its command. -/
theorem issue_code (w : CommandWord) (s : State) :
    ∃ (t : State) (c : FaultCode), issue w s = .next (t.setFC c) ∧
      (c = .invalidBitCount ↔ ∃ i, decode w = .command i ∧ refusesCount i s) ∧
      (c = .invalidBase32 ↔ ∃ i, decode w = .command i ∧ refusesText i s) ∧
      (c = .illegalCommand ↔ ∃ why, decode w = .reserved why) := by
  cases hw : decode w with
  | command i =>
    obtain ⟨t, c, hexec, hcount, htext, hlegal⟩ := exec_code i s
    exact ⟨t, c, (issue_of_command hw s).trans hexec, by simpa using hcount, by simpa using htext,
      by simp [hlegal]⟩
  | reserved why =>
    exact ⟨s, .illegalCommand, issue_of_reserved hw s, by simp, by simp, by simp⟩

/-- The commands R201 lists. -/
theorem mnemonic_of_refusesCount {i : Instr} {s : State} (h : refusesCount i s) :
    i.mnemonic ∈ ["GEOHASH", "LOCATE", "B32D", "MDEC", "TRUNC"] := by
  cases i with
  | geohash | locate | b32d | mdec | trunc => simp [Instr.mnemonic]
  | _ => exact h.elim

theorem mnemonic_of_refusesText {i : Instr} {s : State} (h : refusesText i s) :
    i.mnemonic ∈ ["B32D", "LOCATE"] := by
  obtain ⟨rfl | rfl, -⟩ := h <;> simp [Instr.mnemonic]

/-- Settles O18: the codes are those of `issue_code`, and a word that faults writes no more. -/
theorem outcomeCodesByCommand : Obligations.OutcomeCodesByCommand := by
  intro w s
  obtain ⟨t, c, hissue, hcount, htext, hillegal⟩ := issue_code w s
  refine ⟨_, hissue, ?_, fun h => ?_, fun h => ?_, ?_, fun h => ?_⟩
  · rw [State.fc_setFC]
    cases c <;> decide
  · obtain ⟨i, hi, hrefuses⟩ := hcount.1 (State.fc_setFC_eq_iff.1 h)
    exact ⟨i, hi, mnemonic_of_refusesCount hrefuses⟩
  · obtain ⟨i, hi, hrefuses⟩ := htext.1 (State.fc_setFC_eq_iff.1 h)
    exact ⟨i, hi, mnemonic_of_refusesText hrefuses⟩
  · exact (State.fc_setFC_eq_iff (d := .illegalCommand)).trans hillegal
  · obtain ⟨d, hd⟩ := issue_fault hissue h
    rw [hd]
    rfl

/-- Settles O19: the conditions are those of `refusesCount`. -/
theorem invalidBitCountCauses : Obligations.InvalidBitCountCauses := by
  intro i s
  obtain ⟨t, c, hexec, hcount, -, -⟩ := exec_code i s
  refine ⟨_, hexec, (State.fc_setFC_eq_iff (d := .invalidBitCount)).trans (hcount.trans ?_)⟩
  cases i <;> exact Iff.rfl

/-! ### The characters of a text -/

/-- The three ways R143 finds a byte invalid. -/
theorem not_mem_romEnc_iff {b : Byte} :
    b ∉ romEnc ↔
      b.toNat < 0x30 ∨ b.toNat > 0x7A ∨ romDec[b.toNat - 0x30]? = some Config.decInv := by
  by_cases hrange : b < 0x30#8 ∨ 0x7A#8 < b
  · refine iff_of_true (fun hb => romEnc_in_range b hb hrange) ?_
    exact hrange.imp (fun hlow => by bv_omega) fun hhigh => .inl (by bv_omega)
  · have hlow : ¬ b.toNat < 0x30 := by bv_omega
    have hhigh : ¬ b.toNat > 0x7A := by bv_omega
    have hbyte : BitVec.ofNat 8 (0x30 + (b.toNat - 0x30)) = b := by bv_omega
    rw [getElem?_romDec (by omega), hbyte, Option.some_inj, decodeEntry_eq_decInv_iff]
    simp only [hlow, hhigh, false_or]

theorem not_textValid_iff {s : State} :
    ¬ textValid s ↔ ∃ k : Fin 12, k.val < s.textLength ∧ s.txt[k] ∉ romEnc := by
  simp only [textValid, charValid, not_forall, exists_prop]

theorem refusesText_iff {i : Instr} {s : State} :
    refusesText i s ↔
      ((i = .b32d ∧ s.textLength ≤ 12) ∨
        (i = .locate ∧ 1 ≤ s.textLength ∧ s.textLength ≤ 12)) ∧ ¬ textValid s := by
  rw [refusesText, ← and_assoc, or_and_right]
  refine and_congr_left fun _ => or_congr ?_ ?_
  · exact and_congr_right fun hi => hi ▸ not_refusesCount_b32d_iff
  · exact and_congr_right fun hi => hi ▸ not_refusesCount_locate_iff

/-- Settles O20: the condition is `refusesText`, with the invalid character found as R143 does. -/
theorem invalidBase32Causes : Obligations.InvalidBase32Causes := by
  intro i s
  obtain ⟨t, c, hexec, -, htext, -⟩ := exec_code i s
  refine ⟨_, hexec, (State.fc_setFC_eq_iff (d := .invalidBase32)).trans (htext.trans ?_)⟩
  simp only [refusesText_iff, not_textValid_iff, not_mem_romEnc_iff]
  exact Iff.rfl

/-! ### Priority, reserved words, and what a fault leaves -/

/-- Settles O21: a reserved word has no checks, and a length out of range is refused before any
character is read. -/
theorem firstFailingCheckIsReported : Obligations.FirstFailingCheckIsReported := by
  refine ⟨fun w why s hw => ⟨_, issue_of_reserved hw s, State.fc_setFC .illegalCommand s⟩,
    fun s hlong => ⟨?_, ?_⟩, fun s h1 h12 hinv => ⟨?_, ?_⟩⟩
  · exact ⟨_, exec_b32d_of_gt hlong, State.fc_setFC .invalidBitCount s⟩
  · exact ⟨_, exec_locate_of_refused (.inr hlong), State.fc_setFC .invalidBitCount s⟩
  · exact ⟨_, exec_b32d_of_invalid h12 hinv, State.fc_setFC .invalidBase32 s⟩
  · exact ⟨_, exec_locate_of_invalid h1 h12 hinv, State.fc_setFC .invalidBase32 s⟩

/-- A word that selects no row of the opcode map is reserved (R65). -/
theorem exists_reserved_of_selects_no_row {w : CommandWord}
    (h : ∀ r ∈ opcodeTable, r.selects w = false) : ∃ why, decode w = .reserved why := by
  cases hw : decode w with
  | reserved why => exact ⟨why, rfl⟩
  | command i =>
    have hmem : rowOf i ∈ opcodeTable := rowOf_mem_opcodeTable i
    have hsel : (rowOf i).selects w = true := (selects_iff_decode hmem).2 ⟨i, hw, rfl⟩
    exact absurd hsel (by simp [h _ hmem])

/-- Settles O15: the word is reserved, and its issue writes code 3. -/
theorem reservedWordRaisesIllegalCommand : Obligations.ReservedWordRaisesIllegalCommand := by
  intro w s h
  obtain ⟨why, hw⟩ := exists_reserved_of_selects_no_row h
  exact ⟨_, issue_of_reserved hw s, rfl, State.fc_setFC .illegalCommand s,
    State.statusReserved_setFC .illegalCommand s⟩

/-- Settles O16: a word that faults writes a code (`issue_fault`), and that is a write to
`STATUS.FC`. -/
theorem faultChangesOnlyTheStatusCode : Obligations.FaultChangesOnlyTheStatusCode := by
  intro w s t hissue hfc
  obtain ⟨c, rfl⟩ := issue_fault hissue hfc
  exact ⟨rfl, State.statusReserved_setFC c s⟩

theorem perform_answers (a : Action) (s : State) : ∃ t, perform a s = .next t := by
  cases a with
  | issue w =>
    obtain ⟨t, c, hissue, -, -⟩ := issue_ends w s
    exact ⟨_, hissue⟩
  | write | read | reset => exact ⟨_, rfl⟩

/-- Settles O8: a step waits or performs the host's next action, and every action is answered. -/
theorem everyStepAnswersANextState : Obligations.EveryStepAnswersANextState := by
  intro s
  obtain ⟨-, hwait⟩ | ⟨a, rest, -, hstep⟩ := step_cases s
  · exact ⟨s, hwait⟩
  · rw [hstep]
    exact perform_answers a _

end Sys2Proof.Machine

/-! ### Proofs of the reset and decoding families: what a reset leaves, and the three reserved
classes -/

namespace Sys2Proof.Machine

/-! ### The reset event -/

/-- After a reset every register reads as in the reset state: what `resetRegisters` keeps is the
host's side, which no read sees (R230). -/
@[simp] theorem State.hostRead_resetRegisters (r : Reg) (s : State) :
    s.resetRegisters.hostRead r = State.reset.hostRead r := by
  cases r <;> rfl

/-- Settles O12: the step performs the reset, on whatever state it finds. -/
theorem resetEventGivesEveryRegisterItsResetValue :
    Obligations.ResetEventGivesEveryRegisterItsResetValue :=
  fun _ _ hreset => ⟨_, step_of_pending_cons hreset,
    fun r => State.hostRead_resetRegisters r _, State.resetRegisters_status _⟩

/-! ### The three classes of reserved words (R65) -/

theorem decode_of_unassignedOp {w : CommandWord} (h : 0x11 ≤ (opField w).toNat) :
    decode w = .reserved .unassignedOp := by
  unfold decode
  split
  case h_18 => rfl
  all_goals omega

theorem decode_of_bit7Set {w : CommandWord} {i : Instr} (hop : opField w = i.opcode)
    (hz : zField w ≠ 0#1) : decode w = .reserved .bit7Set := by
  have hN (j : Instr) : decodeFormatN w j = .reserved .bit7Set := if_pos hz
  have hI (f : Nat → Instr) : decodeFormatI w f = .reserved .bit7Set := if_pos hz
  cases i <;> simp [decode, hop, Instr.opcode, hN, hI]

theorem decode_of_immediateNotZero {w : CommandWord} {i : Instr} (hop : opField w = i.opcode)
    (hi : i.immediate? = none) (hz : zField w = 0#1) (himm : immField w ≠ 0#7) :
    decode w = .reserved .immediateNotZero := by
  have hN (j : Instr) : decodeFormatN w j = .reserved .immediateNotZero :=
    (if_neg (not_not.2 hz)).trans (if_pos himm)
  cases i with
  | mdec | trunc | geohash | bits | prec | err => cases hi
  | _ => simp [decode, hop, Instr.opcode, hN]

/-- Settles O1: eight words have the layout of their commands, and four are in a reserved class. -/
theorem wordsOfEachFamilyDecode : Obligations.WordsOfEachFamilyDecode := by
  refine ⟨?nop, ?qnt, ?spread, ?menc, ?mdec, ?b32d, ?geohash, ?err, ?nopImm, ?mdecBit7, ?op11,
    ?opFF⟩
  case nopImm => exact decode_of_immediateNotZero (i := .nop) rfl rfl rfl (by decide)
  case mdecBit7 => exact decode_of_bit7Set (i := .mdec 0) rfl (by decide)
  case op11 | opFF => exact decode_of_unassignedOp (by decide)
  all_goals exact decode_of_isWordOf ⟨rfl, rfl, rfl⟩

end Sys2Proof.Machine
